-- ==== Sys2Proof/Machine/Binary64.lean ====
section
/-! DEFINITION. IEEE 754 binary64, as far as TWRE uses it (00_scope.md R13; 41_register_codec.md R147, R151):
multiplication of two finite values that are not negative, rounded to nearest, ties to even. The format
is the spec's own general knowledge (K1; log 11). -/

namespace Sys2Proof.Machine.Binary64

/-- The exact number `sig * 2 ^ exp`. -/
structure Scaled where
  sig : Nat
  exp : Int
deriving DecidableEq, Repr

/-- The exact number that a finite pattern without a sign stands for: exponent field 62:52, fraction
51:0, with a leading one unless the exponent field is zero. -/
def unpack (b : BitVec 64) : Scaled :=
  let e := (b.extractLsb' 52 11).toNat
  let f := (b.extractLsb' 0 52).toNat
  if e = 0 then ⟨f, -1074⟩ else ⟨2 ^ 52 + f, (e : Int) - 1075⟩

/-- `n / 2 ^ k` to the nearest integer, ties to the even one. -/
def roundQuotient (n k : Nat) : Nat :=
  let q := n >>> k
  let twice := 2 * (n % 2 ^ k)
  if 2 ^ k < twice ∨ (twice = 2 ^ k ∧ q % 2 = 1) then q + 1 else q

/-- The pattern of positive infinity, to which too large a number is rounded. -/
def infinity : BitVec 64 := 0x7FF0000000000000

/-- The pattern nearest to an exact number, ties to even (`f64` of R13). The last place of the result
weighs `2 ^ unit`. The significand's leading one, and a carry out of rounding, are added into the
exponent field, whose value one short of the number's own makes room for them. -/
def pack (x : Scaled) : BitVec 64 :=
  if x.sig = 0 then 0
  else
    let unit : Int := max ((Nat.log2 x.sig : Int) + x.exp - 52) (-1074)
    let q :=
      if unit ≤ x.exp then x.sig <<< (x.exp - unit).toNat
      else roundQuotient x.sig (unit - x.exp).toNat
    BitVec.ofNat 64 (min ((unit + 1074).toNat * 2 ^ 52 + q) infinity.toNat)

/-- `f64(n)` for an integer (R13). -/
def ofNat (n : Nat) : BitVec 64 := pack ⟨n, 0⟩

/-- `a *f b` for finite patterns without a sign (R13): the exact product, rounded once. -/
def mul (a b : BitVec 64) : BitVec 64 :=
  let x := unpack a
  let y := unpack b
  pack ⟨x.sig * y.sig, x.exp + y.exp⟩

/-- `C001`, the pattern of `f64(0.01)` (R13, R147). -/
def c001 : BitVec 64 := 0x3F847AE147AE147B

/-- The rational number that a finite pattern without a sign stands for: the reading of a pattern by
which `IsNearest` says what rounding must do. -/
def value (b : BitVec 64) : ℚ := (unpack b).sig * (2 : ℚ) ^ (unpack b).exp

/-- `b` is the binary64 value nearest to `x`, with ties to even (R13): it is finite and not negative,
no other such pattern is nearer, and another is as near only where `b` is the even one. -/
def IsNearest (x : ℚ) (b : BitVec 64) : Prop :=
  b < infinity ∧
    ∀ c : BitVec 64, c < infinity → c ≠ b →
      |value b - x| < |value c - x| ∨ (|value b - x| = |value c - x| ∧ b.getLsbD 0 = false)

end Sys2Proof.Machine.Binary64
end

