-- ==== Sys2Proof/Word.lean ====
section
/-! DEFINITION. The widths that the spec fixes for every TWRE (00_scope.md R8, R10). -/

namespace Sys2Proof

/-- An 8-bit value: a register offset, an operation code, one byte on the bus. -/
abbrev Byte := BitVec 8

/-- A 16-bit register value (R14, Register Value). -/
abbrev Half := BitVec 16

/-- A command word, `CMD_W = 48` bits (R8, R80). -/
abbrev CmdWord := BitVec 48

/-- A bus address of a device: 7 bits (R22, C1). -/
abbrev DevAddr := BitVec 7

end Sys2Proof
end

