-- ==== Sys2Proof/Config.lean ====
section
/-! DEFINITION. What an instance of TWRE fixes (00_scope.md R8), and the free values: the behaviour of
the bus agent and of the device, which the spec leaves open (93_implementation_defined.md U1 to U4, U9, U10). -/

namespace Sys2Proof

/-- How the device answers reads (R8, R38, R52). -/
inductive DeviceModel where
  /-- Every read is an unconstrained draw: the default. -/
  | unconstrained
  /-- A read of a written register gives what was written; any other read is a draw. -/
  | loopback
deriving DecidableEq, Repr, Inhabited

/-- The parameters of one instance (R8), each with the spec's value as its default. They are numbers
as given, in or out of their legal ranges: `Machine.paramRefusal` refuses those out of range (R94). -/
structure Params where
  /-- `DEVICE_ADDR`, loaded into `SESSION.DEV` at every reset (R22). Legal: `0x00` to `0x7F` (D30). -/
  deviceAddr : Nat := 0x44
  /-- `ADC_W`, the width at which the host reads the ADC register (R9). Legal: at least 35. -/
  adcW : Nat := 40
  /-- `DEVICE_MODEL` (R52). -/
  deviceModel : DeviceModel := .unconstrained
deriving DecidableEq, Repr, Inhabited

/-- What the bus agent does, in one step, about the outstanding transaction (R54, R55, R56). -/
inductive BusEvent where
  /-- The transaction has not returned yet. A transaction that never returns is one whose every event
  is this one (R56, R206). -/
  | silent
  /-- The transaction ends with `Ok`. For a read, `b0` is the byte received first and the two bytes
  are the oracle's draw (R52, R54). For a write this is the acknowledgement, and the bytes say
  nothing. -/
  | ok (b0 b1 : Byte)
  /-- The transaction ends short: fewer than two bytes moved (R55; DOC0 §7 "short read/write"). -/
  | short (first : Option Byte)
  /-- The transaction ends with `Fail`. -/
  | fail
deriving DecidableEq, Repr, Inhabited

namespace Config

/-- FREE VALUE (log 4): the `n`-th event of a bus agent to which the state gives no answer of its
own. Nothing is known of it: any read value, success or failure, and no return at all (U1, U2, U3). -/
opaque busDraw : Nat → BusEvent

/-- FREE VALUE (log 7): what the `n`-th failed or cut-off write leaves in the loopback device's
register, where `none` is UNWRITTEN (R38, R107, R231; U4, U9). -/
opaque deviceLeaves : Nat → Option Half

/-- `T_SETTLE`, OPEN (R8, R234; U10; log 16). No rule of the engine depends on it. -/
opaque tSettle : Nat

/-- The least legal `ADC_W` (R9). -/
def minAdcW : Nat := 35

/-- The greatest legal `DEVICE_ADDR` (R8, D30). -/
def maxDeviceAddr : Nat := 0x7F

end Config
end Sys2Proof
end

