-- ==== Sys2Proof/Syntax.lean ====
section
/-! DEFINITION. The commands (30_encoding.md R84), the raw command format (R80), the named registers of
the device (20_memory.md R60), and the assembly language (R88, R89). -/

namespace Sys2Proof

/-- The one command format, `CMD`, as its four fields (R80). -/
structure Cmd where
  /-- Bits 47:40. -/
  op : Byte
  /-- Bits 39:32. -/
  reg : Byte
  /-- Bits 31:16. -/
  d0 : Half
  /-- Bits 15:0. -/
  d1 : Half
deriving DecidableEq, Repr, Inhabited

/-- The mnemonics of R84, one for each row of spec/opcode_table.json. -/
inductive Mnemonic where
  | read16
  | write16
  | readDeviceId
  | writeConfig0
  | writeConfig1
  | readChannelAdc
  | readLuxFixed
  | readLuxFloat
  | decodePair
  | decodeLux
deriving DecidableEq, Repr, Inhabited

/-- All mnemonics, in the order of R84. -/
def Mnemonic.all : List Mnemonic :=
  [.read16, .write16, .readDeviceId, .writeConfig0, .writeConfig1,
   .readChannelAdc, .readLuxFixed, .readLuxFloat, .decodePair, .decodeLux]

/-- A command with the operands that R84 gives it, each taken from its field unchanged (R82). -/
inductive Instr where
  /-- READ16 (R100): read the register at `reg`. -/
  | read16 (reg : Byte)
  /-- WRITE16 (R104): write `value` to the register at `reg`. -/
  | write16 (reg : Byte) (value : Half)
  /-- READ_DEVICE_ID (R130). -/
  | readDeviceId
  /-- WRITE_CONFIG0 (R132). -/
  | writeConfig0
  /-- WRITE_CONFIG1 (R134). -/
  | writeConfig1
  /-- READ_CHANNEL_ADC (R140): read and decode the pair at `reg` and `reg + 1`. -/
  | readChannelAdc (reg : Byte)
  /-- READ_LUX_FIXED (R150): read and decode the lux register at `reg`. -/
  | readLuxFixed (reg : Byte)
  /-- READ_LUX_FLOAT (R152). -/
  | readLuxFloat (reg : Byte)
  /-- DECODE_PAIR (R160): decode the pair `first`, `second` taken from the word. -/
  | decodePair (first second : Half)
  /-- DECODE_LUX (R162): decode `value` taken from the word. -/
  | decodeLux (value : Half)
deriving DecidableEq, Repr, Inhabited

/-- The row of R84 that a command belongs to. -/
def Instr.mnemonic : Instr → Mnemonic
  | .read16 _ => .read16
  | .write16 _ _ => .write16
  | .readDeviceId => .readDeviceId
  | .writeConfig0 => .writeConfig0
  | .writeConfig1 => .writeConfig1
  | .readChannelAdc _ => .readChannelAdc
  | .readLuxFixed _ => .readLuxFixed
  | .readLuxFloat _ => .readLuxFloat
  | .decodePair _ _ => .decodePair
  | .decodeLux _ => .decodeLux

/-- The named registers of the device (R60). Their offsets are `Machine.DevReg.offset`. -/
inductive DevReg where
  | exponent0 | result0
  | exponent1 | result1
  | exponent2 | result2
  | exponent3 | result3
  | th | tl
  | config0 | config1
  | deviceId
deriving DecidableEq, Repr, Inhabited

/-- An `imm8` of the assembly language: a numeral, or the name of a device register (R88). -/
inductive Imm8 where
  | num (n : Nat)
  | name (r : DevReg)
deriving DecidableEq, Repr, Inhabited

/-- One line of assembly: a command, a pseudo-command (R89), or the directive `.word` (R88). Numerals
are as written, whether they fit their field or not. -/
inductive AsmLine where
  | read16 (reg : Imm8)
  | write16 (reg : Imm8) (value : Nat)
  | readDeviceId
  | writeConfig0
  | writeConfig1
  | readChannelAdc (reg : Imm8)
  | readLuxFixed (reg : Imm8)
  | readLuxFloat (reg : Imm8)
  | decodePair (first second : Nat)
  | decodeLux (value : Nat)
  /-- `READ_CHANNEL c`. -/
  | readChannel (c : Nat)
  /-- `INIT_DEFAULTS`. -/
  | initDefaults
  /-- `READ_ID`. -/
  | readId
  /-- `.word w`: the raw command word, legal or not. -/
  | word (w : Nat)
deriving DecidableEq, Repr, Inhabited

end Sys2Proof
end

