-- ==== Sys2Proof/Machine/State.lean ====
section
/-! DEFINITION. Everything the spec gives the machine, as plain data (10_state.md), with what the host
and the bus agent bring from outside, and the reasons a step can stop (30_encoding.md R94). -/

namespace Sys2Proof.Machine

/-- `PHASE` (R23). -/
inductive Phase where
  | idle
  | busy
deriving DecidableEq, Repr, Inhabited

/-- A bus transaction: 2 bytes at one register offset of one device (R54). -/
inductive Transaction where
  /-- `BusRead(dev, reg, 2)`. -/
  | read (dev : DevAddr) (reg : Byte)
  /-- `BusWrite(dev, reg, [b0, b1])`: `b0` goes first. -/
  | write (dev : DevAddr) (reg : Byte) (b0 b1 : Byte)
deriving DecidableEq, Repr, Inhabited

/-- The architectural exceptions (R201). Each is a way for a command to complete (R200), not a fault
of the model (R94). -/
inductive Exception where
  | busError
  | illegalCommand
  | addrOverflow
deriving DecidableEq, Repr, Inhabited

/-- The stored fields of `STATUS` (R25). `BUSY` is `PHASE` (R28) and bit 7 is hardwired (R30), so
neither is stored: `State.statusWord` is the register as the host reads it (log 10). -/
structure Status where
  valid : Bool := false
  err : Bool := false
  ecode : BitVec 4 := 0
  lastop : Byte := 0
deriving DecidableEq, Repr, Inhabited

/-- The data registers O1 to O11 of the output register file (R24). -/
structure DataRegs where
  /-- O1, the first or only register value read or decoded. -/
  raw0 : Half := 0
  /-- O2, the second register value of a pair. -/
  raw1 : Half := 0
  /-- O3, the exponent. -/
  exp : BitVec 4 := 0
  /-- O4, `result_msb`. -/
  rmsb : BitVec 12 := 0
  /-- O5, `result_lsb`. -/
  rlsb : Byte := 0
  /-- O6, `counter`. -/
  cnt : BitVec 4 := 0
  /-- O7, `crc`: 12 bits, the literal formula (R122). -/
  crc : BitVec 12 := 0
  /-- O8, the channel mantissa, or the lux mantissa zero-extended. -/
  mant : BitVec 20 := 0
  /-- O9, the ADC code, at the spec's width of 40 (R9; log 9). -/
  adc : BitVec 40 := 0
  /-- O10, fixed-point lux. -/
  luxfix : BitVec 32 := 0
  /-- O11, binary64 lux, as its pattern. -/
  luxflt : BitVec 64 := 0
deriving DecidableEq, Repr, Inhabited

/-- The registers of the output register file (R24). -/
inductive OutReg where
  | status | raw0 | raw1 | exp | rmsb | rlsb | cnt | crc | mant | adc | luxfix | luxflt
deriving DecidableEq, Repr, Inhabited

/-- The loopback device's register file, `DEVREG` (R38): pairs of an offset and the 16-bit value
written there. An offset with no pair is UNWRITTEN. The unit is a register of 16 bits at an 8-bit
offset, since the spec has no byte address (R37, R58; log 8). -/
abbrev Memory := List (Nat × Half)

/-- The canonical form: offsets strictly rising, and every one of them an 8-bit offset (R37). -/
abbrev Memory.wf (m : Memory) : Prop :=
  m.Pairwise (fun p q => p.1 < q.1) ∧ ∀ p ∈ m, p.1 < 256

/-- One thing the host does at the command port or the reset input (R23, R90, R231). -/
inductive HostAction where
  /-- Offer a command word and hold it until the engine takes it (R23, R90). -/
  | offer (w : CmdWord)
  /-- Do nothing during one step. -/
  | pause
  /-- Watch `STATUS.BUSY` and do nothing until it is 0 (R209, R236). -/
  | awaitIdle
  /-- Reset TWRE (R230, R231). -/
  | reset
deriving DecidableEq, Repr, Inhabited

/-- The state of TWRE and of what surrounds it. -/
structure State where
  /-- The instance's parameters (R8). No step changes them. -/
  params : Params
  /-- `SESSION.DEV` (R22). -/
  dev : DevAddr
  /-- `PHASE` (R23). -/
  phase : Phase
  /-- `CUR`, the command being executed (R23). -/
  cur : CmdWord
  /-- `LATCH0`, the first value of a pair until the second is read (R23). -/
  latch0 : Half
  /-- `PEND`, the outstanding transaction or NONE (R23). -/
  pend : Option Transaction
  /-- `STATUS`, O0 (R25). -/
  status : Status
  /-- O1 to O11 (R24). -/
  out : DataRegs
  /-- `DEVREG`, the loopback device's registers (R38). -/
  devreg : Memory
  /-- OUTSIDE: what the host will do, the next action first (log 3). -/
  host : List HostAction
  /-- OUTSIDE: what the bus agent will answer, the next event first (log 4). -/
  answers : List BusEvent
  /-- THE MODEL'S OWN: how many free values have been drawn (log 4, log 7). -/
  draws : Nat
deriving DecidableEq, Repr, Inhabited

/-- Why a step can stop with a fault. -/
inductive Fault where
  /-- Raised by a meaning that finds in `PEND` a transaction its command never issues. No run from a
  consistent state reaches this, since only the running command fills `PEND` (R23, R65). Safe: the
  model stops where the spec describes nothing (log 12). -/
  | strayTransaction
deriving DecidableEq, Repr, Inhabited

/-- Why a step can be refused (R94 c). -/
inductive Refusal where
  /-- Raised by `exec` for an instruction that has no meaning yet. Safe. No arm uses it. -/
  | notModelled (mnemonic : String)
  /-- Raised by `step` for an instance whose `ADC_W` is below 35 (R9, U12). Safe. -/
  | adcWidthBelow35
  /-- Raised by `step` for an instance whose `DEVICE_ADDR` is above `0x7F` (D30, U11). Safe. -/
  | deviceAddrAbove7F
deriving DecidableEq, Repr, Inhabited

/-- What a meaning answers. -/
abbrev Result := Host.Outcome State Fault Refusal

/-- The machine right after reset (R39, R230), with the spec's default parameters (R8), nothing
written in the loopback device, and nothing yet brought from outside. `CUR` and `LATCH0` are
unspecified in the spec and zero here (log 5). -/
def State.reset : State where
  params := {}
  dev := 0x44
  phase := .idle
  cur := 0
  latch0 := 0
  pend := none
  status := {}
  out := {}
  devreg := []
  host := []
  answers := []
  draws := 0

end Sys2Proof.Machine
end

