-- ==== Sys2Proof/Machine/FieldDecoder.lean ====
section
/-! DEFINITION. The combinational field decoder: `DecodePair`, `DecodeLux` and `LuxFloat`
(41_register_codec.md R120 to R151), and the register writes that commit what they give. -/

namespace Sys2Proof.Machine

/-- The record `DecodePair` returns (R125). `adcCode` is the exact integer (R124). -/
structure PairFields where
  exponent : BitVec 4
  resultMsb : BitVec 12
  resultLsb : Byte
  counter : BitVec 4
  crc : BitVec 12
  mantissa : BitVec 20
  adcCode : Nat
deriving DecidableEq, Repr

/-- `DecodePair` (R125), each field by its literal formula (R120, R122), `crc` overlapping `counter`
and `result_lsb` as it says. -/
def decodePair (f s : Half) : PairFields :=
  let exponent : BitVec 4 := (f >>> 12).setWidth 4
  let resultMsb : BitVec 12 := (f &&& 0x0FFF).setWidth 12
  let resultLsb : Byte := (s >>> 8).setWidth 8
  let mantissa : BitVec 20 := (resultMsb.setWidth 20 <<< 8) ||| resultLsb.setWidth 20
  { exponent := exponent
    resultMsb := resultMsb
    resultLsb := resultLsb
    counter := ((s &&& 0x00FF) >>> 4).setWidth 4
    crc := (s &&& 0x0FFF).setWidth 12
    mantissa := mantissa
    adcCode := mantissa.toNat <<< exponent.toNat }

/-- The record `DecodeLux` returns (R145). `fixed` is the exact integer. -/
structure LuxFields where
  exponent : BitVec 4
  mantissa : BitVec 12
  fixed : Nat
deriving DecidableEq, Repr

/-- `DecodeLux` (R145). -/
def decodeLux (r : Half) : LuxFields :=
  let exponent : BitVec 4 := (r >>> 12).setWidth 4
  let mantissa : BitVec 12 := (r &&& 0x0FFF).setWidth 12
  { exponent := exponent
    mantissa := mantissa
    fixed := mantissa.toNat <<< exponent.toNat }

/-- `LuxFloat(fixed) = f64(fixed) *f C001` (R147): one multiplication, one rounding (R148). -/
def luxFloat (fixed : Nat) : BitVec 64 := Binary64.mul (Binary64.ofNat fixed) Binary64.c001

/-- The commit block of READ_CHANNEL_ADC and DECODE_PAIR (R140, R160). -/
def commitPair (f s : Half) (o : DataRegs) : DataRegs :=
  let r := decodePair f s
  { o with
    raw0 := f
    raw1 := s
    exp := r.exponent
    rmsb := r.resultMsb
    rlsb := r.resultLsb
    cnt := r.counter
    crc := r.crc
    mant := r.mantissa
    adc := BitVec.ofNat 40 r.adcCode }

/-- The commit block of READ_LUX_FIXED (R150). -/
def commitLuxFixed (r : Half) (o : DataRegs) : DataRegs :=
  let x := decodeLux r
  { o with
    raw0 := r
    exp := x.exponent
    mant := x.mantissa.setWidth 20
    luxfix := BitVec.ofNat 32 x.fixed }

/-- The commit block of READ_LUX_FLOAT and DECODE_LUX (R152, R162). -/
def commitLuxFloat (r : Half) (o : DataRegs) : DataRegs :=
  let x := decodeLux r
  { o with
    raw0 := r
    exp := x.exponent
    mant := x.mantissa.setWidth 20
    luxfix := BitVec.ofNat 32 x.fixed
    luxflt := luxFloat x.fixed }

/-- The commit block of READ16 and READ_DEVICE_ID (R100, R130). -/
def commitRaw (v : Half) (o : DataRegs) : DataRegs := { o with raw0 := v }

/-- The empty commit block of the writing commands (R104, R132, R134). -/
def commitNothing (o : DataRegs) : DataRegs := o

end Sys2Proof.Machine
end

