-- ==== Sys2Proof/WellFormed.lean ====
section
/-! DEFINITION. Which terms are well formed: the raw command fields that are a legal word (30_encoding.md
R83, R84, R86), and the assembly lines an assembler accepts (R88, R89). -/

namespace Sys2Proof

/-- The fields are those of a legal command word: `OP` is defined, and every field that the command
does not use is zero (R83, R84, R86). Written from the table of R84, apart from the decoder. -/
def Cmd.wellFormed (c : Cmd) : Bool :=
  if c.op = 0x01#8 then c.d0 = 0 && c.d1 = 0
  else if c.op = 0x02#8 then c.d1 = 0
  else if c.op = 0x03#8 then c.reg = 0 && c.d0 = 0 && c.d1 = 0
  else if c.op = 0x04#8 then c.reg = 0 && c.d0 = 0 && c.d1 = 0
  else if c.op = 0x05#8 then c.reg = 0 && c.d0 = 0 && c.d1 = 0
  else if c.op = 0x06#8 then c.d0 = 0 && c.d1 = 0
  else if c.op = 0x07#8 then c.d0 = 0 && c.d1 = 0
  else if c.op = 0x08#8 then c.d0 = 0 && c.d1 = 0
  else if c.op = 0x09#8 then c.reg = 0
  else if c.op = 0x0A#8 then c.reg = 0 && c.d1 = 0
  else false

/-- Every `Instr` is well formed: its operands have the widths of their fields, and every value of a
field is a legal operand (R58, R82). READ_CHANNEL_ADC at offset `0xFF` too: its word is legal, and the
command raises AddrOverflow when it runs (R141; 95_test_vectors.md 2.1). -/
def Instr.wellFormed : Instr → Bool
  | .read16 _ => true
  | .write16 _ _ => true
  | .readDeviceId => true
  | .writeConfig0 => true
  | .writeConfig1 => true
  | .readChannelAdc _ => true
  | .readLuxFixed _ => true
  | .readLuxFloat _ => true
  | .decodePair _ _ => true
  | .decodeLux _ => true

/-- A numeral for an 8-bit field fits it; a register name always does (R88). -/
def Imm8.wellFormed : Imm8 → Bool
  | .num n => n < 2 ^ 8
  | .name _ => true

/-- The assembler accepts the line: each numeral fits its field (R88), and a channel is 0 to 3 (R89). -/
def AsmLine.wellFormed : AsmLine → Bool
  | .read16 r => r.wellFormed
  | .write16 r v => r.wellFormed && v < 2 ^ 16
  | .readDeviceId => true
  | .writeConfig0 => true
  | .writeConfig1 => true
  | .readChannelAdc r => r.wellFormed
  | .readLuxFixed r => r.wellFormed
  | .readLuxFloat r => r.wellFormed
  | .decodePair f s => f < 2 ^ 16 && s < 2 ^ 16
  | .decodeLux v => v < 2 ^ 16
  | .readChannel c => c < 4
  | .initDefaults => true
  | .readId => true
  | .word w => w < 2 ^ 48

end Sys2Proof
end

