-- ==== Sys2Proof/Decode.lean ====
section
/-! DEFINITION. The decoder, total on every 48-bit word (30_encoding.md R80 to R87), the encoder written
from the same table, and the match and mask table of R85, which the decoder does not use. -/

namespace Sys2Proof

/-- The four fields of a command word (R80). -/
def CmdWord.toCmd (w : CmdWord) : Cmd where
  op := w.extractLsb' 40 8
  reg := w.extractLsb' 32 8
  d0 := w.extractLsb' 16 16
  d1 := w.extractLsb' 0 16

/-- The command word with the given fields (R80). -/
def Cmd.toWord (c : Cmd) : CmdWord := c.op ++ c.reg ++ c.d0 ++ c.d1

/-- The `OP` column of R84. -/
def Mnemonic.op : Mnemonic → Byte
  | .read16 => 0x01
  | .write16 => 0x02
  | .readDeviceId => 0x03
  | .writeConfig0 => 0x04
  | .writeConfig1 => 0x05
  | .readChannelAdc => 0x06
  | .readLuxFixed => 0x07
  | .readLuxFloat => 0x08
  | .decodePair => 0x09
  | .decodeLux => 0x0A

/-- Which mnemonic an operation code stands for (R84, R86, R87). -/
def Mnemonic.ofOp (op : Byte) : Option Mnemonic :=
  Mnemonic.all.find? fun m => m.op = op

/-- Which fields a command uses. A field it does not use is reserved and must be zero (R83). -/
structure FieldUse where
  reg : Bool
  d0 : Bool
  d1 : Bool
deriving DecidableEq, Repr

/-- The `REG`, `D0` and `D1` columns of R84: `false` where the table has `0`. -/
def Mnemonic.uses : Mnemonic → FieldUse
  | .read16 => ⟨true, false, false⟩
  | .write16 => ⟨true, true, false⟩
  | .readDeviceId => ⟨false, false, false⟩
  | .writeConfig0 => ⟨false, false, false⟩
  | .writeConfig1 => ⟨false, false, false⟩
  | .readChannelAdc => ⟨true, false, false⟩
  | .readLuxFixed => ⟨true, false, false⟩
  | .readLuxFloat => ⟨true, false, false⟩
  | .decodePair => ⟨false, true, true⟩
  | .decodeLux => ⟨false, true, false⟩

/-- Every field that the command leaves unused is zero (R83). -/
def Cmd.reservedZero (m : Mnemonic) (c : Cmd) : Bool :=
  (m.uses.reg || c.reg = 0) && (m.uses.d0 || c.d0 = 0) && (m.uses.d1 || c.d1 = 0)

/-- The command with its operands taken from the fields unchanged (R82). -/
def Mnemonic.build (m : Mnemonic) (c : Cmd) : Instr :=
  match m with
  | .read16 => .read16 c.reg
  | .write16 => .write16 c.reg c.d0
  | .readDeviceId => .readDeviceId
  | .writeConfig0 => .writeConfig0
  | .writeConfig1 => .writeConfig1
  | .readChannelAdc => .readChannelAdc c.reg
  | .readLuxFixed => .readLuxFixed c.reg
  | .readLuxFloat => .readLuxFloat c.reg
  | .decodePair => .decodePair c.d0 c.d1
  | .decodeLux => .decodeLux c.d0

/-- What decoding finds: a command, or why the word is illegal (R83, R86). -/
inductive Decoded where
  | instr (i : Instr)
  /-- `OP` is `0x00` or `0x0B` to `0xFF`. -/
  | undefinedOp
  /-- A field the command does not use holds a nonzero bit. -/
  | reservedNonzero (m : Mnemonic)
deriving DecidableEq, Repr

/-- Decoding of the fields (R86, R91). -/
def Cmd.decode (c : Cmd) : Decoded :=
  match Mnemonic.ofOp c.op with
  | none => .undefinedOp
  | some m => if c.reservedZero m then .instr (m.build c) else .reservedNonzero m

/-- The command a word stands for; `none` for every illegal word (R86, R91). -/
def decode (w : CmdWord) : Option Instr :=
  match w.toCmd.decode with
  | .instr i => some i
  | .undefinedOp => none
  | .reservedNonzero _ => none

/-- A command word listed as bytes: six of them, the most significant first (R80). -/
def wordOfBytes : List Byte → Option CmdWord
  | [b5, b4, b3, b2, b1, b0] => some (b5 ++ b4 ++ b3 ++ b2 ++ b1 ++ b0)
  | _ => none

/-- The bytes a command word is listed as (R80). -/
def CmdWord.toBytes (w : CmdWord) : List Byte :=
  [w.extractLsb' 40 8, w.extractLsb' 32 8, w.extractLsb' 24 8,
   w.extractLsb' 16 8, w.extractLsb' 8 8, w.extractLsb' 0 8]

/-- Decoding of a listing, total on any bytes: there is one length only (R81). -/
def decodeBytes (bs : List Byte) : Option Instr := (wordOfBytes bs).bind decode

/-- The fields of a command (R84; the comments of R88). -/
def Instr.toCmd : Instr → Cmd
  | .read16 r => { op := 0x01, reg := r, d0 := 0, d1 := 0 }
  | .write16 r v => { op := 0x02, reg := r, d0 := v, d1 := 0 }
  | .readDeviceId => { op := 0x03, reg := 0, d0 := 0, d1 := 0 }
  | .writeConfig0 => { op := 0x04, reg := 0, d0 := 0, d1 := 0 }
  | .writeConfig1 => { op := 0x05, reg := 0, d0 := 0, d1 := 0 }
  | .readChannelAdc r => { op := 0x06, reg := r, d0 := 0, d1 := 0 }
  | .readLuxFixed r => { op := 0x07, reg := r, d0 := 0, d1 := 0 }
  | .readLuxFloat r => { op := 0x08, reg := r, d0 := 0, d1 := 0 }
  | .decodePair f s => { op := 0x09, reg := 0, d0 := f, d1 := s }
  | .decodeLux v => { op := 0x0A, reg := 0, d0 := v, d1 := 0 }

/-- The word of a command. -/
def encode (i : Instr) : CmdWord := i.toCmd.toWord

/-- The `match` column of R85. -/
def Mnemonic.matchBits : Mnemonic → CmdWord
  | .read16 => 0x010000000000
  | .write16 => 0x020000000000
  | .readDeviceId => 0x030000000000
  | .writeConfig0 => 0x040000000000
  | .writeConfig1 => 0x050000000000
  | .readChannelAdc => 0x060000000000
  | .readLuxFixed => 0x070000000000
  | .readLuxFloat => 0x080000000000
  | .decodePair => 0x090000000000
  | .decodeLux => 0x0A0000000000

/-- The `mask` column of R85. -/
def Mnemonic.maskBits : Mnemonic → CmdWord
  | .read16 => 0xFF00FFFFFFFF
  | .write16 => 0xFF000000FFFF
  | .readDeviceId => 0xFFFFFFFFFFFF
  | .writeConfig0 => 0xFFFFFFFFFFFF
  | .writeConfig1 => 0xFFFFFFFFFFFF
  | .readChannelAdc => 0xFF00FFFFFFFF
  | .readLuxFixed => 0xFF00FFFFFFFF
  | .readLuxFloat => 0xFF00FFFFFFFF
  | .decodePair => 0xFFFF00000000
  | .decodeLux => 0xFFFF0000FFFF

/-- The word selects the row of R85: `(w & mask) = match`. -/
abbrev Mnemonic.selects (m : Mnemonic) (w : CmdWord) : Prop := w &&& m.maskBits = m.matchBits

/-- The command word that `nbits` bits of a table row stand for: the bits above them are zero. TWRE
has one word of 48 bits, which the port takes whole (R80), so the table's numbering is the word's. -/
def tableWord (nbits w : Nat) : CmdWord := BitVec.ofNat 48 (w % 2 ^ nbits)

/-- The decoder's reading of a word numbered as spec/opcode_table.json numbers it. A number of more
than 48 bits is no command word (R81). -/
def decodeTableWord (nbits w : Nat) : Option Instr :=
  if nbits ≤ 48 then decode (tableWord nbits w) else none

end Sys2Proof
end

