-- ==== Sys2Proof/Machine/Flags.lean ====
section
/-! DEFINITION. `STATUS`: its layout (10_state.md R25), what a completion writes into it (R27, R29), and the
output registers as the host reads them (R24). -/

namespace Sys2Proof.Machine

/-- The exception codes (R201). -/
def Exception.code : Exception → BitVec 4
  | .busError => 1
  | .illegalCommand => 2
  | .addrOverflow => 3

/-- What a successful completion writes (R27, R29, R93). -/
def Status.success (op : Byte) : Status :=
  { valid := true, err := false, ecode := 0, lastop := op }

/-- What a completion with an exception writes (R27, R29, R93). -/
def Status.failure (e : Exception) (op : Byte) : Status :=
  { valid := true, err := true, ecode := e.code, lastop := op }

/-- `STATUS.BUSY`: 1 exactly while `PHASE` is BUSY (R28). -/
def State.busy (s : State) : Bool := s.phase = .busy

/-- `STATUS` as the host reads it: LASTOP 15:8, reserved 7, BUSY 6, ECODE 5:2, ERR 1, VALID 0 (R25). -/
def State.statusWord (s : State) : BitVec 16 :=
  s.status.lastop ++ 0#1 ++ BitVec.ofBool s.busy ++ s.status.ecode ++
    BitVec.ofBool s.status.err ++ BitVec.ofBool s.status.valid

/-- The ADC register at the instance's width `ADC_W` (R9, R24; log 9). -/
def State.adcPort (s : State) : BitVec s.params.adcW := s.out.adc.setWidth s.params.adcW

/-- What the host reads from a register of the output register file, as an unsigned integer (R10,
R24). It can be read in every state (R31). -/
def State.readOut (r : OutReg) (s : State) : Nat :=
  match r with
  | .status => s.statusWord.toNat
  | .raw0 => s.out.raw0.toNat
  | .raw1 => s.out.raw1.toNat
  | .exp => s.out.exp.toNat
  | .rmsb => s.out.rmsb.toNat
  | .rlsb => s.out.rlsb.toNat
  | .cnt => s.out.cnt.toNat
  | .crc => s.out.crc.toNat
  | .mant => s.out.mant.toNat
  | .adc => s.adcPort.toNat
  | .luxfix => s.out.luxfix.toNat
  | .luxflt => s.out.luxflt.toNat

end Sys2Proof.Machine
end

