-- ==== Sys2Proof/Machine/Operands.lean ====
section
/-! DEFINITION. How operands are formed: bytes on the wire and register values (20_memory.md R53, R55),
the two offsets of a channel pair (30_encoding.md R82), and the fixed offsets and words of the commands
(20_memory.md R60). -/

namespace Sys2Proof.Machine

/-- The register value of two bytes received in order: the first is bits 15:8 (R53, R55). -/
def joinBytes (b0 b1 : Byte) : Half := b0 ++ b1

/-- The byte of a register value that goes first on the wire: `v >> 8` (R53, R55). -/
def highByte (v : Half) : Byte := (v >>> 8).setWidth 8

/-- The byte that goes second: `v & 0xFF` (R53, R55). -/
def lowByte (v : Half) : Byte := (v &&& 0x00FF).setWidth 8

/-- The offset after `a`: a 9-bit sum, and none where it is no 8-bit offset (R82, R141). -/
def nextOffset (a : Byte) : Option Byte :=
  let sum : BitVec 9 := a.setWidth 9 + 1
  if sum ≤ 0xFF then some (sum.setWidth 8) else none

/-- The offsets of the named registers of the device (R60). -/
def DevReg.offset : DevReg → Byte
  | .exponent0 => 0x00
  | .result0 => 0x01
  | .exponent1 => 0x02
  | .result1 => 0x03
  | .exponent2 => 0x04
  | .result2 => 0x05
  | .exponent3 => 0x06
  | .result3 => 0x07
  | .th => 0x09
  | .tl => 0x19
  | .config0 => 0x0A
  | .config1 => 0x0B
  | .deviceId => 0x11

/-- The fixed word that WRITE_CONFIG0 sends (R132, R133). -/
def config0Word : Half := 0xC838

/-- The fixed word that WRITE_CONFIG1 sends (R133, R134). -/
def config1Word : Half := 0x4011

end Sys2Proof.Machine
end

