-- ==== Sys2Proof/Machine/Ops.lean ====
section
/-! DEFINITION. The shared operations: completing a command and raising an exception (30_encoding.md R93,
60_exceptions.md R200), bus transactions (20_memory.md R54 to R56), the loopback device (10_state.md R38),
the command port and reset (30_encoding.md R90, 70_reset_and_hazards.md R230, R231). -/

namespace Sys2Proof.Machine

/-! ### The loopback device's registers -/

/-- The value at an offset; `none` where nothing is known to have been written (R38). -/
def Memory.read : Memory → Nat → Option Half
  | [], _ => none
  | (b, w) :: m, a => if a = b then some w else Memory.read m a

/-- Store a value at an offset, keeping the offsets in order. -/
def Memory.write : Memory → Nat → Half → Memory
  | [], a, v => [(a, v)]
  | (b, w) :: m, a, v =>
    if a < b then (a, v) :: (b, w) :: m
    else if a = b then (a, v) :: m
    else (b, w) :: Memory.write m a v

/-- Make an offset UNWRITTEN. -/
def Memory.erase (m : Memory) (a : Nat) : Memory := m.filter fun p => p.1 ≠ a

/-- Put a value, or UNWRITTEN, at an offset (R38). -/
def Memory.put (m : Memory) (a : Nat) : Option Half → Memory
  | some v => Memory.write m a v
  | none => Memory.erase m a

namespace State

/-! ### Completion and exceptions -/

/-- Complete the command with success (R93): the commit block, `STATUS`, and back to IDLE, in one
step. `LASTOP` is `CUR[47:40]` (R29). -/
def complete (commit : DataRegs → DataRegs) (s : State) : State :=
  { s with
    out := commit s.out
    status := Status.success s.cur.toCmd.op
    phase := .idle }

/-- Take an exception (R200, R207): the command completes, `STATUS` records it, and nothing else is
written: no data register, no saved state, no jump (R32). After it the engine is IDLE and takes the
next command (R208). -/
def raise (e : Exception) (s : State) : State :=
  { s with
    status := Status.failure e s.cur.toCmd.op
    phase := .idle }

/-! ### The bus -/

/-- Issue a transaction (R92): it is now outstanding. -/
def issue (t : Transaction) (s : State) : State := { s with pend := some t }

/-- The outstanding transaction has ended. -/
def retire (s : State) : State := { s with pend := none }

/-- Keep the first value of a pair (R140). -/
def latch (v : Half) (s : State) : State := { s with latch0 := v }

/-- What the bus agent does in this step: the next answer given from outside, else a free value. -/
def nextEvent (s : State) : BusEvent :=
  match s.answers with
  | e :: _ => e
  | [] => Config.busDraw s.draws

/-- The event of this step is used up. -/
def consumeEvent (s : State) : State :=
  match s.answers with
  | _ :: rest => { s with answers := rest }
  | [] => { s with draws := s.draws + 1 }

/-- The value of a read that ended with `Ok` and the bytes `b0`, `b1` (R52, R55). The loopback device
answers with what was written, and with the draw where nothing was (R38). -/
def readValue (s : State) (reg b0 b1 : Byte) : Half :=
  match s.params.deviceModel with
  | .unconstrained => joinBytes b0 b1
  | .loopback => (s.devreg.read reg.toNat).getD (joinBytes b0 b1)

/-- A write of `v` succeeded: the loopback device holds it (R38). An unconstrained device's registers
are not followed (R52). -/
def deviceStore (reg : Byte) (v : Half) (s : State) : State :=
  match s.params.deviceModel with
  | .unconstrained => s
  | .loopback => { s with devreg := s.devreg.put reg.toNat (some v) }

/-- A write failed or was cut off: what the loopback device's register holds now is a free value (R38,
R107, R231). -/
def deviceUnknown (reg : Byte) (s : State) : State :=
  match s.params.deviceModel with
  | .unconstrained => s
  | .loopback =>
    { s with
      devreg := s.devreg.put reg.toNat (Config.deviceLeaves s.draws)
      draws := s.draws + 1 }

/-- The read transaction at `reg` (R54, R55), addressed to `SESSION.DEV` (R50). -/
def readTransaction (s : State) (reg : Byte) : Transaction := .read s.dev reg

/-- The write transaction of `v` at `reg`: the high byte goes first (R53, R55). -/
def writeTransaction (s : State) (reg : Byte) (v : Half) : Transaction :=
  .write s.dev reg (highByte v) (lowByte v)

/-- The step in which a read at `reg` is outstanding: nothing of the engine moves while it has not
returned (R92, R94 b); its value goes to `k`; a failed or short read is a BusError (R55, R203). -/
def awaitRead (reg : Byte) (s : State) (k : Half → State → Result) : Result :=
  match s.nextEvent with
  | .silent => .next s.consumeEvent
  | .ok b0 b1 => k (s.readValue reg b0 b1) s.consumeEvent.retire
  | .short _ => .next (s.consumeEvent.retire.raise .busError)
  | .fail => .next (s.consumeEvent.retire.raise .busError)

/-- The step in which a write of `v` at `reg` is outstanding (R55, R92). A failed or short write is a
BusError, and leaves the device's register unknown (R107). -/
def awaitWrite (reg : Byte) (v : Half) (s : State) (k : State → Result) : Result :=
  match s.nextEvent with
  | .silent => .next s.consumeEvent
  | .ok _ _ => k (s.consumeEvent.retire.deviceStore reg v)
  | .short _ => .next ((s.consumeEvent.retire.deviceUnknown reg).raise .busError)
  | .fail => .next ((s.consumeEvent.retire.deviceUnknown reg).raise .busError)

/-- `v <- MemRead(reg, 2)` of a command with this one transaction, and `k v` after it (R55): one step
issues the read, and the steps after it wait for its return. -/
def memRead (reg : Byte) (s : State) (k : Half → State → Result) : Result :=
  match s.pend with
  | none => .next (s.issue (s.readTransaction reg))
  | some t =>
    if t = s.readTransaction reg then s.awaitRead reg k else .fault .strayTransaction

/-- `MemWrite(reg, 2, v)` of a command with this one transaction, and `k` after it (R55). -/
def memWrite (reg : Byte) (v : Half) (s : State) (k : State → Result) : Result :=
  match s.pend with
  | none => .next (s.issue (s.writeTransaction reg v))
  | some t =>
    if t = s.writeTransaction reg v then s.awaitWrite reg v k else .fault .strayTransaction

/-! ### The command port and reset -/

/-- Take a command word from the port (R90). -/
def accept (w : CmdWord) (s : State) : State := { s with cur := w, phase := .busy }

/-- What reset does to the device: a write that it cuts off leaves its register unknown, and nothing
else changes there (R231, R232). -/
def cutOff (s : State) : State :=
  match s.pend with
  | some (.write _ reg _ _) => s.deviceUnknown reg
  | some (.read _ _) => s
  | none => s

/-- Reset (R230, R231): every part of TWRE's state takes its value of R39, and a running command is
abandoned with no completion. `CUR` and `LATCH0`, unspecified there, become zero (log 5). -/
def applyReset (s : State) : State :=
  let t := s.cutOff
  { t with
    dev := BitVec.ofNat 7 t.params.deviceAddr
    phase := .idle
    cur := 0
    latch0 := 0
    pend := none
    status := {}
    out := {} }

/-- Whose the step is, once the host has had its say. -/
inductive Turn where
  /-- The host's action was the step: a reset, or a word taken from the port. -/
  | taken (s : State)
  /-- The engine goes on from here. -/
  | engine (s : State)
deriving DecidableEq, Repr

/-- The host's part of a step. Reset comes at once, whatever the engine is doing (R231). A word is
taken while IDLE (R90) and held while BUSY (R23). DESIGN CHOICE: an offer at the head of the list keeps every
later action, a reset too, waiting until it is taken; what becomes of a word held at the port when a reset
comes, which R230 and R231 do not say, is the claim's to say by its list (log 3). -/
def hostTurn (s : State) : Turn :=
  match s.host with
  | [] => .engine s
  | .pause :: rest => .engine { s with host := rest }
  | .awaitIdle :: rest =>
    match s.phase with
    | .idle => .engine { s with host := rest }
    | .busy => .engine s
  | .reset :: rest => .taken { s.applyReset with host := rest }
  | .offer w :: rest =>
    match s.phase with
    | .idle => .taken { s.accept w with host := rest }
    | .busy => .engine s

/-- What the engine has to do. -/
inductive Work where
  /-- It is IDLE and waits for a command (R63). -/
  | nothing
  /-- `CUR` is a legal command: run it (R91). -/
  | run (i : Instr)
  /-- `CUR` is illegal (R86, R91). -/
  | illegal
deriving DecidableEq, Repr

/-- Decode `CUR` while BUSY (R91): this reads nothing else. -/
def work (s : State) : Work :=
  match s.phase with
  | .idle => .nothing
  | .busy =>
    match decode s.cur with
    | some i => .run i
    | none => .illegal

/-- The state with a command word accepted and not yet begun, and no action of the host in the way:
the next step decodes and runs it. -/
def withCommand (s : State) (w : CmdWord) : State :=
  { s with
    phase := .busy
    cur := w
    pend := none
    host := [] }

end State

/-- The refusal of an instance whose parameters are out of their legal ranges (R94 c). -/
def paramRefusal (p : Params) : Option Refusal :=
  if p.adcW < Config.minAdcW then some .adcWidthBelow35
  else if Config.maxDeviceAddr < p.deviceAddr then some .deviceAddrAbove7F
  else none

end Sys2Proof.Machine
end

