-- ==== Sys2Proof/Machine/BusTransport.lean ====
section
/-! DEFINITION. The Bus Transport commands (40_bus_transport.md). -/

namespace Sys2Proof.Machine

/-- READ16 (R100). -/
def execRead16 (reg : Byte) (s : State) : Result :=
  s.memRead reg fun v t => .next (t.complete (commitRaw v))

/-- WRITE16 (R104). -/
def execWrite16 (reg : Byte) (value : Half) (s : State) : Result :=
  s.memWrite reg value fun t => .next (t.complete commitNothing)

end Sys2Proof.Machine
end

