-- ==== Sys2Proof/Machine/DecodeOnly.lean ====
section
/-! DEFINITION. The decode-only commands (42_decode_only.md): no transaction (R161, R163). -/

namespace Sys2Proof.Machine

/-- DECODE_PAIR (R160). -/
def execDecodePair (first second : Half) (s : State) : Result :=
  .next (s.complete (commitPair first second))

/-- DECODE_LUX (R162). -/
def execDecodeLux (value : Half) (s : State) : Result :=
  .next (s.complete (commitLuxFloat value))

end Sys2Proof.Machine
end

