-- ==== Sys2Proof/Machine/RegisterCodec.lean ====
section
/-! DEFINITION. The Register Codec commands (41_register_codec.md, part 2). -/

namespace Sys2Proof.Machine

/-- READ_DEVICE_ID (R130): the value is not compared with anything (R131). -/
def execReadDeviceId (s : State) : Result :=
  s.memRead (DevReg.offset .deviceId) fun v t => .next (t.complete (commitRaw v))

/-- WRITE_CONFIG0 (R132): a constant, whatever the state (R133). -/
def execWriteConfig0 (s : State) : Result :=
  s.memWrite (DevReg.offset .config0) config0Word fun t => .next (t.complete commitNothing)

/-- WRITE_CONFIG1 (R134): a constant, whatever the state (R133). -/
def execWriteConfig1 (s : State) : Result :=
  s.memWrite (DevReg.offset .config1) config1Word fun t => .next (t.complete commitNothing)

/-- READ_CHANNEL_ADC (R140). The address check comes before any transaction (R141). Which of the two
reads is outstanding is seen from its offset: the second is issued in the step that receives the first
value (R142; log 1). -/
def execReadChannelAdc (a : Byte) (s : State) : Result :=
  match nextOffset a, s.pend with
  | none, none => .next (s.raise .addrOverflow)
  | none, some _ => .fault .strayTransaction
  | some _, none => .next (s.issue (s.readTransaction a))
  | some b, some t =>
    if t = s.readTransaction a then
      s.awaitRead a fun v u => .next ((u.latch v).issue (u.readTransaction b))
    else if t = s.readTransaction b then
      s.awaitRead b fun v u => .next (u.complete (commitPair u.latch0 v))
    else .fault .strayTransaction

/-- READ_LUX_FIXED (R150). -/
def execReadLuxFixed (reg : Byte) (s : State) : Result :=
  s.memRead reg fun v t => .next (t.complete (commitLuxFixed v))

/-- READ_LUX_FLOAT (R152). -/
def execReadLuxFloat (reg : Byte) (s : State) : Result :=
  s.memRead reg fun v t => .next (t.complete (commitLuxFloat v))

end Sys2Proof.Machine
end

