-- ==== Sys2Proof/Machine/Dispatch.lean ====
section
/-! DEFINITION. One arm per command: the execute stage of the command cycle (30_encoding.md R92). -/

namespace Sys2Proof.Machine

/-- One engine step of the command `i`, which has been accepted and decoded. -/
def exec (i : Instr) (s : State) : Host.Outcome State Fault Refusal :=
  match i with
  | .read16 reg => Sys2Proof.Machine.execRead16 reg s
  | .write16 reg value => Sys2Proof.Machine.execWrite16 reg value s
  | .readDeviceId => Sys2Proof.Machine.execReadDeviceId s
  | .writeConfig0 => Sys2Proof.Machine.execWriteConfig0 s
  | .writeConfig1 => Sys2Proof.Machine.execWriteConfig1 s
  | .readChannelAdc reg => Sys2Proof.Machine.execReadChannelAdc reg s
  | .readLuxFixed reg => Sys2Proof.Machine.execReadLuxFixed reg s
  | .readLuxFloat reg => Sys2Proof.Machine.execReadLuxFloat reg s
  | .decodePair first second => Sys2Proof.Machine.execDecodePair first second s
  | .decodeLux value => Sys2Proof.Machine.execDecodeLux value s

end Sys2Proof.Machine
end

