-- ==== Sys2Proof/Machine/Step.lean ====
section
/-! DEFINITION. One step of the machine (30_encoding.md R90 to R94). -/

namespace Sys2Proof.Machine

/-- One step: an instance with illegal parameters is refused (R94 c); else the host acts; else the
engine waits for a command, runs the one in `CUR`, or completes an illegal one (R91, R202). A wait for
the bus agent is a next state in which the engine has not moved (R94 b; log 6). -/
def step (s : State) : Host.Outcome State Fault Refusal :=
  match paramRefusal s.params with
  | some r => .refused r
  | none =>
    match s.hostTurn with
    | .taken t => .next t
    | .engine t =>
      match t.work with
      | .nothing => .next t
      | .run i => exec i t
      | .illegal => .next (t.raise .illegalCommand)

/-- The state with the word of `nbits` bits as the command that the very next step decodes and runs:
TWRE fetches nothing (R68), so this stands where the host's acceptance would have left it (R90; log 2). -/
def State.withFetchWord (s : State) (nbits w : Nat) : State := s.withCommand (tableWord nbits w)

end Sys2Proof.Machine
end

