-- ==== Sys2Proof/Machine/Assembler.lean ====
section
/-! DEFINITION. The assembly language (30_encoding.md R88) and the pseudo-commands (R89): from a line of
text to its command words. What R88 does not fix of the text (blanks, lower case) is log 18. -/

namespace Sys2Proof.Machine

/-! ### From a line to its command words -/

/-- A numeral that fits a field of `w` bits; the assembler refuses any other (R88). -/
def fitField (w n : Nat) : Option (BitVec w) := if n < 2 ^ w then some (BitVec.ofNat w n) else none

/-- The offset that an `imm8` spells (R88). -/
def Imm8.value : Imm8 → Option Byte
  | .num n => fitField 8 n
  | .name r => some (DevReg.offset r)

/-- The command that `READ_CHANNEL c` expands to; no channel but 0 to 3 (R60, R89). -/
def expandReadChannel : Nat → Option Instr
  | 0 => some (.readChannelAdc (DevReg.offset .exponent0))
  | 1 => some (.readChannelAdc (DevReg.offset .exponent1))
  | 2 => some (.readChannelAdc (DevReg.offset .exponent2))
  | 3 => some (.readChannelAdc (DevReg.offset .exponent3))
  | _ => none

/-- The commands that `INIT_DEFAULTS` expands to, in order (R89). -/
def expandInitDefaults : List Instr := [.writeConfig0, .writeConfig1]

/-- The commands of a line; `none` where the assembler refuses it, or where it is `.word`, which
spells a word and not a command (R88, R89). -/
def commandsOf : AsmLine → Option (List Instr)
  | .read16 r => (Imm8.value r).map fun b => [.read16 b]
  | .write16 r v => (Imm8.value r).bind fun b => (fitField 16 v).map fun x => [.write16 b x]
  | .readDeviceId => some [.readDeviceId]
  | .writeConfig0 => some [.writeConfig0]
  | .writeConfig1 => some [.writeConfig1]
  | .readChannelAdc r => (Imm8.value r).map fun b => [.readChannelAdc b]
  | .readLuxFixed r => (Imm8.value r).map fun b => [.readLuxFixed b]
  | .readLuxFloat r => (Imm8.value r).map fun b => [.readLuxFloat b]
  | .decodePair f s => (fitField 16 f).bind fun x => (fitField 16 s).map fun y => [.decodePair x y]
  | .decodeLux v => (fitField 16 v).map fun x => [.decodeLux x]
  | .readChannel c => (expandReadChannel c).map fun i => [i]
  | .initDefaults => some expandInitDefaults
  | .readId => some [.readDeviceId]
  | .word _ => none

/-- The command words of a line (R88, R89); `none` where the assembler refuses it. -/
def assemble (l : AsmLine) : Option (List CmdWord) :=
  match l with
  | .word w => (fitField 48 w).map fun x => [x]
  | _ => (commandsOf l).map fun is => is.map encode

/-! ### From text to a line -/

def isBlank (c : Char) : Bool := c = ' ' || c = '\t'

def trim (cs : List Char) : List Char := ((cs.dropWhile isBlank).reverse.dropWhile isBlank).reverse

/-- The pieces between commas. -/
def splitCommas : List Char → List (List Char)
  | [] => [[]]
  | c :: cs =>
    if c = ',' then [] :: splitCommas cs
    else
      match splitCommas cs with
      | [] => [[c]]
      | w :: ws => (c :: w) :: ws

def hexDigit (c : Char) : Option Nat :=
  if '0' ≤ c ∧ c ≤ '9' then some (c.toNat - '0'.toNat)
  else if 'a' ≤ c ∧ c ≤ 'f' then some (c.toNat - 'a'.toNat + 10)
  else if 'A' ≤ c ∧ c ≤ 'F' then some (c.toNat - 'A'.toNat + 10)
  else none

/-- Digits in a base, most significant first, after the value `acc`. -/
def digits (base : Nat) : Nat → List Char → Option Nat
  | acc, [] => some acc
  | acc, c :: cs =>
    match hexDigit c with
    | none => none
    | some d => if d < base then digits base (acc * base + d) cs else none

/-- A numeral: `0x` and hexadecimal digits, or decimal digits (R88). DESIGN CHOICE: no `_` among the digits;
R10 lets one in the spec's own numerals, and R88 does not say for the assembler (log 18). -/
def numeral : List Char → Option Nat
  | [] => none
  | ['0', 'x'] => none
  | '0' :: 'x' :: ds => digits 16 0 ds
  | ds => digits 10 0 ds

/-- The register names of R60. -/
def regNames : List (String × DevReg) :=
  [("EXPONENT0", .exponent0), ("RESULT0", .result0), ("EXPONENT1", .exponent1), ("RESULT1", .result1),
   ("EXPONENT2", .exponent2), ("RESULT2", .result2), ("EXPONENT3", .exponent3), ("RESULT3", .result3),
   ("TH", .th), ("TL", .tl), ("CONFIG0", .config0), ("CONFIG1", .config1), ("DEVICEID", .deviceId)]

/-- An `imm8`: a numeral or a register name; an unknown name is refused (R88). -/
def imm8 (cs : List Char) : Option Imm8 :=
  match numeral cs with
  | some n => some (.num n)
  | none => (regNames.find? fun p => p.1.toList = cs).map fun p => .name p.2

/-- The line with the given first word and operands (R88, R89). -/
def lineOf (word : List Char) (args : List (List Char)) : Option AsmLine :=
  match args with
  | [] =>
    if word = "READ_DEVICE_ID".toList then some .readDeviceId
    else if word = "WRITE_CONFIG0".toList then some .writeConfig0
    else if word = "WRITE_CONFIG1".toList then some .writeConfig1
    else if word = "INIT_DEFAULTS".toList then some .initDefaults
    else if word = "READ_ID".toList then some .readId
    else none
  | [a] =>
    if word = "READ16".toList then (imm8 a).map .read16
    else if word = "READ_CHANNEL_ADC".toList then (imm8 a).map .readChannelAdc
    else if word = "READ_LUX_FIXED".toList then (imm8 a).map .readLuxFixed
    else if word = "READ_LUX_FLOAT".toList then (imm8 a).map .readLuxFloat
    else if word = "DECODE_LUX".toList then (numeral a).map .decodeLux
    else if word = "READ_CHANNEL".toList then (numeral a).map .readChannel
    else if word = ".word".toList then (numeral a).map .word
    else none
  | [a, b] =>
    if word = "WRITE16".toList then (imm8 a).bind fun r => (numeral b).map fun v => .write16 r v
    else if word = "DECODE_PAIR".toList then
      (numeral a).bind fun f => (numeral b).map fun s => .decodePair f s
    else none
  | _ => none

/-- A line of text without its comment (R88): its first word, and its operands between commas. -/
def parseLine (text : String) : Option AsmLine :=
  let code := trim (text.toList.takeWhile fun c => c ≠ ';')
  let word := code.takeWhile fun c => !isBlank c
  let rest := trim (code.dropWhile fun c => !isBlank c)
  lineOf word (if rest = [] then [] else (splitCommas rest).map trim)

/-- The command words of a line of text. A line with nothing before its comment has none. -/
def assembleText (text : String) : Option (List CmdWord) :=
  if trim (text.toList.takeWhile fun c => c ≠ ';') = [] then some []
  else (parseLine text).bind assemble

/-- The command words of a program, one line after another; `none` where any line is refused. -/
def assembleProgram : List String → Option (List CmdWord)
  | [] => some []
  | l :: ls => (assembleText l).bind fun ws => (assembleProgram ls).map fun rest => ws ++ rest

/-- The host that offers these words one after another (R21, R23). -/
def offerAll (ws : List CmdWord) : List HostAction := ws.map HostAction.offer

/-- The host's boot sequence (R233): reset, identify, configure in that order, wait for the last write
to complete and then for `settle` steps (R234; log 16), and read channels. -/
def bootSequence (settle : Nat) (channels : List Instr) : List HostAction :=
  [.reset] ++ offerAll ([.readDeviceId, .writeConfig0, .writeConfig1].map encode) ++
    [.awaitIdle] ++ List.replicate settle .pause ++ offerAll (channels.map encode)

end Sys2Proof.Machine
end

