-- ==== Sys2Proof/Machine/Transactions.lean ====
section
/-! DEFINITION. Which bus transactions each command may issue, in order (20_memory.md R51). The meanings do
not use this table: claims hold them against it. -/

namespace Sys2Proof.Machine

/-- `MemWrite(reg, 2, v)` as a transaction of the device `dev` (R51, R54). -/
def writeOf (dev : DevAddr) (reg : Byte) (v : Half) : Transaction :=
  .write dev reg (v.extractLsb' 8 8) (v.extractLsb' 0 8)

/-- The table of R51, for the device `dev`. -/
def transactionsOf (dev : DevAddr) : Instr → List Transaction
  | .read16 reg => [.read dev reg]
  | .write16 reg value => [writeOf dev reg value]
  | .readDeviceId => [.read dev 0x11]
  | .writeConfig0 => [writeOf dev 0x0A 0xC838]
  | .writeConfig1 => [writeOf dev 0x0B 0x4011]
  | .readChannelAdc reg => if reg = 0xFF then [] else [.read dev reg, .read dev (reg + 1)]
  | .readLuxFixed reg => [.read dev reg]
  | .readLuxFloat reg => [.read dev reg]
  | .decodePair _ _ => []
  | .decodeLux _ => []

end Sys2Proof.Machine
end

