-- ==== Sys2Proof/Safety.lean ====
section
/-! DEFINITION. What counts as a consistent state and as a safe run, in the words the claims use. -/

namespace Sys2Proof.Machine

/-- The parameters are in their legal ranges (R9, D30). -/
abbrev State.ParamsLegal (s : State) : Prop := 35 ≤ s.params.adcW ∧ s.params.deviceAddr ≤ 0x7F

/-- `PEND` is NONE while IDLE, and while BUSY it holds nothing but a transaction of the command in
`CUR` (R23, R51, R65). -/
def State.pendConsistent (s : State) : Bool :=
  match s.phase, s.pend with
  | _, none => true
  | .idle, some _ => false
  | .busy, some x =>
    match decode s.cur with
    | some i => (transactionsOf s.dev i).contains x
    | none => false

/-- The fields of `STATUS` agree: only codes 0 to 3 occur, `ERR` is set exactly with a code, and
nothing is set before the first completion (R25, R26, R27, R201). -/
def Status.consistent (st : Status) : Bool :=
  decide (st.ecode ≤ 3) && (st.err == decide (st.ecode ≠ 0)) &&
    (st.valid || (!st.err && decide (st.ecode = 0) && decide (st.lastop = 0)))

/-- RAW1, RMSB, RLSB, CNT, CRC and ADC always come from one decoding (R24 writes them together), LUXFIX
from one lux value, and LUXFLT from one lux value. -/
def DataRegs.Coherent (o : DataRegs) : Prop :=
  (∃ f : Half,
      o.rmsb = (decodePair f o.raw1).resultMsb ∧
      o.rlsb = (decodePair f o.raw1).resultLsb ∧
      o.cnt = (decodePair f o.raw1).counter ∧
      o.crc = (decodePair f o.raw1).crc ∧
      o.adc.toNat = (decodePair f o.raw1).adcCode) ∧
    (∃ r : Half, o.luxfix.toNat = (decodeLux r).fixed) ∧
    (∃ r : Half, o.luxflt = luxFloat (decodeLux r).fixed)

/-- The invariant of a machine that has been reset: what every step keeps. -/
structure State.Inv (s : State) : Prop where
  /-- The instance is legal (R94 c). -/
  legal : s.ParamsLegal
  /-- `SESSION.DEV` is the instance's address (R22). -/
  dev_eq : s.dev.toNat = s.params.deviceAddr
  /-- The loopback device's registers keep their canonical form (R37). -/
  mem_wf : Memory.wf s.devreg
  /-- An unconstrained device has no registers that the model follows (R38). -/
  mem_unused : s.params.deviceModel = .unconstrained → s.devreg = []
  /-- `PEND` belongs to the running command (R23). -/
  pend_ok : s.pendConsistent = true
  /-- `STATUS` is consistent (R25). -/
  status_ok : s.status.consistent = true
  /-- Before the first completion the data registers hold their reset values (R26). -/
  fresh : s.status.valid = false → s.out = {}
  /-- The data registers are coherent. -/
  coherent : s.out.Coherent

/-- A safe run: no number of steps stops, with a fault or a refusal. -/
def State.NeverStops (s : State) : Prop :=
  ∀ n : Nat, ∃ t : State, Host.Core.run Sys2Proof.core n s = .next t

/-- The host waits long enough after the configuration writes, where `settle` is how long it waits
(R234). No claim about the engine needs it; one about what a reading means does. -/
def HostKeepsSettle (settle : Nat) : Prop := Config.tSettle ≤ settle

/-- What an instruction leaves alone outside its own registers: the parameters, `SESSION.DEV`, `CUR`
and the host's actions. -/
def State.SameSession (s t : State) : Prop :=
  t.params = s.params ∧ t.dev = s.dev ∧ t.cur = s.cur ∧ t.host = s.host

end Sys2Proof.Machine
end

