-- ==== Sys2Proof/Certificates/Slice0/Obligations.lean ====
section
/-! DEFINITION. The statements for the provers. Each docstring names the rules of spec/ it rests on, and the log
entries of notes/assumptions/ where a clause is the model's own choice. -/

open Sys2Proof Sys2Proof.Machine

/-! ### Words the statements use -/

namespace Sys2Proof.Claims

/-- The nine registers of a decoded pair, each from the bits that the table of R120 and R123 give it,
in a register file `o` that is otherwise left alone (R24, R33). -/
def pairRegs (f s : Half) (o : DataRegs) : DataRegs :=
  { o with
    raw0 := f
    raw1 := s
    exp := f.extractLsb' 12 4
    rmsb := f.extractLsb' 0 12
    rlsb := s.extractLsb' 8 8
    cnt := s.extractLsb' 4 4
    crc := s.extractLsb' 0 12
    mant := f.extractLsb' 0 12 ++ s.extractLsb' 8 8
    adc := BitVec.ofNat 40
      ((f.extractLsb' 0 12 ++ s.extractLsb' 8 8).toNat * 2 ^ (f.extractLsb' 12 4).toNat) }

/-- Fixed-point lux of a lux register value: bits 11:0 times two to bits 15:12 (R145). -/
def luxOf (r : Half) : Nat := (r.extractLsb' 0 12).toNat * 2 ^ (r.extractLsb' 12 4).toNat

/-- The four registers of a decoded lux value (R24, R145, R150). -/
def luxFixedRegs (r : Half) (o : DataRegs) : DataRegs :=
  { o with
    raw0 := r
    exp := r.extractLsb' 12 4
    mant := (r.extractLsb' 0 12).setWidth 20
    luxfix := BitVec.ofNat 32 (luxOf r) }

/-- The five registers of a lux value with its binary64 form (R24, R147, R152). -/
def luxFloatRegs (r : Half) (o : DataRegs) : DataRegs :=
  { luxFixedRegs r o with
    luxflt := Binary64.mul (Binary64.ofNat (luxOf r)) 0x3F847AE147AE147B }

/-- The bus agent ends the transaction in this step without success (R55). -/
def Fails (s : State) : Prop := (∃ x, s.nextEvent = .short x) ∨ s.nextEvent = .fail

/-- The host does not reset in this step. -/
def NoReset (s : State) : Prop := ∀ rest, s.host ≠ .reset :: rest

/-- `n` events with no return. -/
def silence (n : Nat) : List BusEvent := List.replicate n .silent

/-- A register that ends as `t` in one run and as `u` in another, begun as `s` and as `o`: the command
wrote the same value in both, or left it alone in both. -/
def WrittenAlikeOrKept {w : Nat} (s t o u : BitVec w) : Prop := u = t ∨ (t = s ∧ u = o)

/-- The names an `imm8` may be, with their offsets (the table of R60). -/
def namedOffsets : List (String × Byte) :=
  [("EXPONENT0", 0x00), ("RESULT0", 0x01), ("EXPONENT1", 0x02), ("RESULT1", 0x03),
   ("EXPONENT2", 0x04), ("RESULT2", 0x05), ("EXPONENT3", 0x06), ("RESULT3", 0x07),
   ("TH", 0x09), ("TL", 0x19), ("CONFIG0", 0x0A), ("CONFIG1", 0x0B), ("DEVICEID", 0x11)]

/-- The text of one operand: no blank, comma or semicolon in it. -/
def Operand (a : String) : Prop := ∀ c ∈ a.toList, c ≠ ' ' ∧ c ≠ '\t' ∧ c ≠ ',' ∧ c ≠ ';'

/-- The machine after `n` steps. -/
abbrev after (n : Nat) (s : State) : Result := Host.Core.run Sys2Proof.core n s

end Sys2Proof.Claims

open Sys2Proof.Claims

/-! ### Encoding -/

/-- Decoding the word of a well-formed command gives the command back, for every command and every
operand (R82, R84). -/
def Obligations.DecodeOfEncodeIsTheCommand : Prop :=
  ∀ i : Instr, i.wellFormed = true → decode (encode i) = some i

/-- A word that decodes to a command is that command's word: no bit of a legal word is ignored (R83). -/
def Obligations.LegalWordIsTheEncodingOfItsCommand : Prop :=
  ∀ (w : CmdWord) (i : Instr), decode w = some i → encode i = w

/-- A word selects a row of the match and mask table exactly when it decodes to a command of that row,
and it never selects two rows (R85). -/
def Obligations.DecoderAgreesWithMatchAndMask : Prop :=
  (∀ (w : CmdWord) (m : Mnemonic), m.selects w ↔ ∃ i, decode w = some i ∧ i.mnemonic = m) ∧
  ∀ (w : CmdWord) (m n : Mnemonic), m.selects w → n.selects w → m = n

/-- A word is illegal exactly when its fields are not those of a row of R84: in particular with `OP`
`0x00`, with `OP` `0x0B` to `0xFF`, and with a nonzero field that its command leaves unused (R83, R86,
R87). -/
def Obligations.IllegalWordsAreTheUndefinedAndTheReserved : Prop :=
  (∀ w : CmdWord, decode w = none ↔ (CmdWord.toCmd w).wellFormed = false) ∧
  ∀ w : CmdWord, ((CmdWord.toCmd w).op = 0x00 ∨ 0x0B ≤ (CmdWord.toCmd w).op) → decode w = none

/-- The fields of a word, and of the six bytes it is listed as, most significant first (R80). -/
def Obligations.CommandFieldsAreWhereTheFormatPutsThem : Prop :=
  (∀ w : CmdWord,
    (CmdWord.toCmd w).op.toNat = w.toNat / 2 ^ 40 ∧
    (CmdWord.toCmd w).reg.toNat = w.toNat / 2 ^ 32 % 2 ^ 8 ∧
    (CmdWord.toCmd w).d0.toNat = w.toNat / 2 ^ 16 % 2 ^ 16 ∧
    (CmdWord.toCmd w).d1.toNat = w.toNat % 2 ^ 16) ∧
  ∀ b5 b4 b3 b2 b1 b0 : Byte, ∃ w : CmdWord, wordOfBytes [b5, b4, b3, b2, b1, b0] = some w ∧
    CmdWord.toCmd w = ⟨b5, b4, b3 ++ b2, b1 ++ b0⟩ ∧ w.toBytes = [b5, b4, b3, b2, b1, b0]

/-- The words of 95_test_vectors.md 2.1, every row of it, decode as it lists them. -/
def Obligations.ListedWordsDecode : Prop :=
  decodeBytes [0x01, 0x11, 0x00, 0x00, 0x00, 0x00] = some (.read16 0x11) ∧
  decodeBytes [0x02, 0x0A, 0xC8, 0x38, 0x00, 0x00] = some (.write16 0x0A 0xC838) ∧
  decodeBytes [0x03, 0x00, 0x00, 0x00, 0x00, 0x00] = some .readDeviceId ∧
  decodeBytes [0x04, 0x00, 0x00, 0x00, 0x00, 0x00] = some .writeConfig0 ∧
  decodeBytes [0x05, 0x00, 0x00, 0x00, 0x00, 0x00] = some .writeConfig1 ∧
  decodeBytes [0x06, 0x00, 0x00, 0x00, 0x00, 0x00] = some (.readChannelAdc 0x00) ∧
  decodeBytes [0x06, 0x02, 0x00, 0x00, 0x00, 0x00] = some (.readChannelAdc 0x02) ∧
  decodeBytes [0x06, 0x04, 0x00, 0x00, 0x00, 0x00] = some (.readChannelAdc 0x04) ∧
  decodeBytes [0x06, 0x06, 0x00, 0x00, 0x00, 0x00] = some (.readChannelAdc 0x06) ∧
  decodeBytes [0x06, 0xFF, 0x00, 0x00, 0x00, 0x00] = some (.readChannelAdc 0xFF) ∧
  decodeBytes [0x07, 0x20, 0x00, 0x00, 0x00, 0x00] = some (.readLuxFixed 0x20) ∧
  decodeBytes [0x08, 0x20, 0x00, 0x00, 0x00, 0x00] = some (.readLuxFloat 0x20) ∧
  decodeBytes [0x09, 0x00, 0xC1, 0x23, 0x45, 0x00] = some (.decodePair 0xC123 0x4500) ∧
  decodeBytes [0x0A, 0x00, 0x21, 0x23, 0x00, 0x00] = some (.decodeLux 0x2123) ∧
  decodeBytes [0x00, 0x00, 0x00, 0x00, 0x00, 0x00] = none ∧
  decodeBytes [0x0B, 0x00, 0x00, 0x00, 0x00, 0x00] = none ∧
  decodeBytes [0xFF, 0xFF, 0xFF, 0xFF, 0xFF, 0xFF] = none ∧
  decodeBytes [0x01, 0x11, 0x00, 0x01, 0x00, 0x00] = none ∧
  decodeBytes [0x03, 0x01, 0x00, 0x00, 0x00, 0x00] = none ∧
  decodeBytes [0x02, 0x0A, 0xC8, 0x38, 0x00, 0x01] = none ∧
  decodeBytes [0x09, 0x01, 0xC1, 0x23, 0x45, 0x00] = none ∧
  decodeBytes [0x0A, 0x00, 0x21, 0x23, 0x00, 0x01] = none

/-! ### The command cycle -/

/-- While BUSY with a legal command in `CUR`, a step is `exec` of that command (R91), for a host that
does nothing, pauses, holds an offer (R23) or watches BUSY. A reset is left out: that step is the reset and
no `exec` (log 15). That a pause or a wait for BUSY costs the engine no step, and that the host is a list
of actions, is the model's choice (log 15, log 3), and so is `withFetchWord`, which makes the very next step
run its word (log 2). -/
def Obligations.StepRunsTheDecodedCommand : Prop :=
  (∀ (s : State) (i : Instr), s.ParamsLegal → s.phase = .busy → decode s.cur = some i →
    (s.host = [] → step s = exec i s) ∧
    (∀ rest, s.host = .pause :: rest → step s = exec i { s with host := rest }) ∧
    (∀ w rest, s.host = .offer w :: rest → step s = exec i s) ∧
    (∀ rest, s.host = .awaitIdle :: rest → step s = exec i s)) ∧
  ∀ (s : State) (w : Nat) (i : Instr), s.ParamsLegal → decodeTableWord 48 w = some i →
    step (s.withFetchWord 48 w) = exec i (s.withFetchWord 48 w)

/-- An IDLE engine takes the offered word in one step, in which no output register but `STATUS.BUSY`
changes; while BUSY it takes none, and the port holds it (R90, R23). -/
def Obligations.AcceptTakesTheOfferedWordOnlyWhileIdle : Prop :=
  (∀ (s : State) (w : CmdWord) (rest : List HostAction),
    s.ParamsLegal → s.phase = .idle → s.host = .offer w :: rest →
    ∃ t, step s = .next t ∧ t = { s with cur := w, phase := .busy, host := rest } ∧
      t.statusWord = s.statusWord ||| 0x0040 ∧
      ∀ r : OutReg, r ≠ .status → t.readOut r = s.readOut r) ∧
  ∀ (s t : State) (w : CmdWord) (rest : List HostAction),
    s.phase = .busy → s.host = .offer w :: rest → step s = .next t →
    t.cur = s.cur ∧ t.host = s.host

/-- An illegal word in `CUR` completes at once with IllegalCommand: `STATUS` is written, no transaction
is issued, and nothing else changes (R202, R86). The state `u` is the one the host leaves to the engine:
the same but for a pause that is used up. That the engine completes in the same step in which a pause is
used up is the model's choice (log 15, log 3). -/
def Obligations.IllegalCommandWritesOnlyStatus : Prop :=
  ∀ s u : State, s.ParamsLegal → s.hostTurn = .engine u → u.phase = .busy →
    (CmdWord.toCmd u.cur).wellFormed = false →
    u = { s with host := u.host } ∧
    step s = .next
      { u with
        status := { valid := true, err := true, ecode := 2, lastop := u.cur.extractLsb' 40 8 }
        phase := .idle }

/-- Reset puts TWRE's state to its reset values whatever it was doing, issues no transaction, and
leaves the device alone except where a write was cut off (R230, R231, R232). That it leaves what the host
and the bus agent have in store as it is, is the model's choice (log 15, log 4); that a read which it cuts
off changes no register of the loopback device is deduced (log 14, from R38). -/
def Obligations.ResetRestoresTheResetValues : Prop :=
  ∀ (s : State) (rest : List HostAction), s.ParamsLegal → s.host = .reset :: rest →
    ∃ t, step s = .next t ∧
      t.dev.toNat = s.params.deviceAddr ∧ t.phase = .idle ∧ t.pend = none ∧
      t.statusWord = 0x0000 ∧ t.status = State.reset.status ∧ t.out = State.reset.out ∧
      t.params = s.params ∧ t.host = rest ∧ t.answers = s.answers ∧
      ∀ a : Nat, (∀ d r b0 b1, s.pend = some (.write d r b0 b1) → r.toNat ≠ a) →
        t.devreg.read a = s.devreg.read a

/-- The state after reset (R39), with the default parameters (R8) and every device register UNWRITTEN
(R38). -/
def Obligations.ResetStateHasTheListedValues : Prop :=
  State.reset.dev = 0x44 ∧ State.reset.phase = .idle ∧ State.reset.pend = none ∧
  State.reset.statusWord = 0x0000 ∧
  (∀ r : OutReg, State.reset.readOut r = 0) ∧
  (∀ a : Nat, State.reset.devreg.read a = none) ∧
  State.reset.params = { deviceAddr := 0x44, adcW := 40, deviceModel := .unconstrained }

/-- An instance out of its legal ranges is refused, and a legal one never is (R9, R94, D30). -/
def Obligations.IllegalInstanceIsRefused : Prop :=
  (∀ s : State, s.params.adcW < 35 → step s = .refused .adcWidthBelow35) ∧
  (∀ s : State, 35 ≤ s.params.adcW → 0x7F < s.params.deviceAddr →
    step s = .refused .deviceAddrAbove7F) ∧
  ∀ s : State, s.ParamsLegal → ∀ r : Refusal, step s ≠ .refused r

/-- An IDLE engine with nothing offered waits (R63). That this wait is a step which answers the same
state is deduced (log 6). -/
def Obligations.IdleEngineWaits : Prop :=
  ∀ s : State, s.ParamsLegal → s.phase = .idle → s.host = [] → step s = .next s

/-! ### What each command does -/

/-- The reading commands issue their read first, and nothing else happens in that step (R51, R100, R130,
R140, R150, R152). -/
def Obligations.ReadingCommandsIssueTheirRead : Prop :=
  ∀ (s : State) (reg : Byte), s.pend = none →
    exec (.read16 reg) s = .next { s with pend := some (.read s.dev reg) } ∧
    exec .readDeviceId s = .next { s with pend := some (.read s.dev 0x11) } ∧
    exec (.readLuxFixed reg) s = .next { s with pend := some (.read s.dev reg) } ∧
    exec (.readLuxFloat reg) s = .next { s with pend := some (.read s.dev reg) } ∧
    (reg ≠ 0xFF → exec (.readChannelAdc reg) s = .next { s with pend := some (.read s.dev reg) })

/-- The writing commands issue their write, the high byte first, and nothing else happens in that step;
the configuration words are constants (R53, R104, R105, R132, R133, R134). -/
def Obligations.WritingCommandsIssueTheirWriteHighByteFirst : Prop :=
  ∀ (s : State) (reg : Byte) (v : Half), s.pend = none →
    (∃ b0 b1 : Byte, b0.toNat = v.toNat / 256 ∧ b1.toNat = v.toNat % 256 ∧
      exec (.write16 reg v) s = .next { s with pend := some (.write s.dev reg b0 b1) }) ∧
    exec .writeConfig0 s = .next { s with pend := some (.write s.dev 0x0A 0xC8 0x38) } ∧
    exec .writeConfig1 s = .next { s with pend := some (.write s.dev 0x0B 0x40 0x11) }

/-- What a read that ended with Ok returns: the first byte is bits 15:8; under Loopback a written
register gives what was written there (R53, R55, R52, R38). -/
def Obligations.ReadValueFollowsTheDeviceModel : Prop :=
  ∀ (s : State) (reg b0 b1 : Byte),
    (s.params.deviceModel = .unconstrained →
      (s.readValue reg b0 b1).toNat = 256 * b0.toNat + b1.toNat) ∧
    (s.params.deviceModel = .loopback → ∀ v, s.devreg.read reg.toNat = some v →
      s.readValue reg b0 b1 = v) ∧
    (s.params.deviceModel = .loopback → s.devreg.read reg.toNat = none →
      (s.readValue reg b0 b1).toNat = 256 * b0.toNat + b1.toNat)

/-- READ16 completes with the value in RAW0 (R100, R101, R33). -/
def Obligations.Read16Completes : Prop :=
  ∀ (s : State) (reg b0 b1 : Byte), decode s.cur = some (.read16 reg) →
    s.pend = some (.read s.dev reg) → s.nextEvent = .ok b0 b1 →
    exec (.read16 reg) s = .next
      { s.consumeEvent with
        pend := none
        out := { s.out with raw0 := s.readValue reg b0 b1 }
        status := { valid := true, err := false, ecode := 0, lastop := 0x01 }
        phase := .idle }

/-- READ_DEVICE_ID completes with the value in RAW0, whatever the value is (R130, R131). -/
def Obligations.ReadDeviceIdCompletesWithAnyValue : Prop :=
  ∀ (s : State) (b0 b1 : Byte), decode s.cur = some .readDeviceId →
    s.pend = some (.read s.dev 0x11) → s.nextEvent = .ok b0 b1 →
    exec .readDeviceId s = .next
      { s.consumeEvent with
        pend := none
        out := { s.out with raw0 := s.readValue 0x11 b0 b1 }
        status := { valid := true, err := false, ecode := 0, lastop := 0x03 }
        phase := .idle }

/-- WRITE16 completes with no data register written; the loopback device then holds the value, and no
other register of it changes (R104, R106, R38). -/
def Obligations.Write16Completes : Prop :=
  ∀ (s : State) (reg b0 b1 : Byte) (v : Half), decode s.cur = some (.write16 reg v) →
    s.pend = some (writeOf s.dev reg v) → s.nextEvent = .ok b0 b1 →
    ∃ t, exec (.write16 reg v) s = .next t ∧
      t = { s.consumeEvent with
            pend := none
            status := { valid := true, err := false, ecode := 0, lastop := 0x02 }
            phase := .idle
            devreg := t.devreg } ∧
      (s.params.deviceModel = .loopback → t.devreg.read reg.toNat = some v) ∧
      (s.params.deviceModel = .unconstrained → t.devreg = s.devreg) ∧
      ∀ a : Nat, a ≠ reg.toNat → t.devreg.read a = s.devreg.read a

/-- WRITE_CONFIG0 and WRITE_CONFIG1 complete with no data register written; the loopback device then
holds the constant (R132, R133, R134, R38). -/
def Obligations.WriteConfigCommandsComplete : Prop :=
  (∀ (s : State) (b0 b1 : Byte), decode s.cur = some .writeConfig0 →
    s.pend = some (.write s.dev 0x0A 0xC8 0x38) → s.nextEvent = .ok b0 b1 →
    ∃ t, exec .writeConfig0 s = .next t ∧
      t = { s.consumeEvent with
            pend := none
            status := { valid := true, err := false, ecode := 0, lastop := 0x04 }
            phase := .idle
            devreg := t.devreg } ∧
      (s.params.deviceModel = .loopback → t.devreg.read 0x0A = some 0xC838) ∧
      (s.params.deviceModel = .unconstrained → t.devreg = s.devreg) ∧
      ∀ a : Nat, a ≠ 0x0A → t.devreg.read a = s.devreg.read a) ∧
  ∀ (s : State) (b0 b1 : Byte), decode s.cur = some .writeConfig1 →
    s.pend = some (.write s.dev 0x0B 0x40 0x11) → s.nextEvent = .ok b0 b1 →
    ∃ t, exec .writeConfig1 s = .next t ∧
      t = { s.consumeEvent with
            pend := none
            status := { valid := true, err := false, ecode := 0, lastop := 0x05 }
            phase := .idle
            devreg := t.devreg } ∧
      (s.params.deviceModel = .loopback → t.devreg.read 0x0B = some 0x4011) ∧
      (s.params.deviceModel = .unconstrained → t.devreg = s.devreg) ∧
      ∀ a : Nat, a ≠ 0x0B → t.devreg.read a = s.devreg.read a

/-- When the first read of READ_CHANNEL_ADC returns a value, it goes to LATCH0 and the second read is
issued, at the next offset; no output register changes (R140, R142; the one step is log 1). -/
def Obligations.ReadChannelAdcIssuesItsSecondRead : Prop :=
  ∀ (s : State) (a b0 b1 : Byte), a ≠ 0xFF →
    s.pend = some (.read s.dev a) → s.nextEvent = .ok b0 b1 →
    exec (.readChannelAdc a) s = .next
      { s.consumeEvent with
        latch0 := s.readValue a b0 b1
        pend := some (.read s.dev (a + 1)) }

/-- When the second read returns, READ_CHANNEL_ADC completes with the decoded pair in its nine registers
(R140, R143, R120, R123, R124). -/
def Obligations.ReadChannelAdcCompletes : Prop :=
  ∀ (s : State) (a b0 b1 : Byte), decode s.cur = some (.readChannelAdc a) → a ≠ 0xFF →
    s.pend = some (.read s.dev (a + 1)) → s.nextEvent = .ok b0 b1 →
    exec (.readChannelAdc a) s = .next
      { s.consumeEvent with
        pend := none
        out := pairRegs s.latch0 (s.readValue (a + 1) b0 b1) s.out
        status := { valid := true, err := false, ecode := 0, lastop := 0x06 }
        phase := .idle }

/-- READ_LUX_FIXED completes with the decoded value in its four registers; LUXFLT stays (R150, R152). -/
def Obligations.ReadLuxFixedCompletes : Prop :=
  ∀ (s : State) (reg b0 b1 : Byte), decode s.cur = some (.readLuxFixed reg) →
    s.pend = some (.read s.dev reg) → s.nextEvent = .ok b0 b1 →
    exec (.readLuxFixed reg) s = .next
      { s.consumeEvent with
        pend := none
        out := luxFixedRegs (s.readValue reg b0 b1) s.out
        status := { valid := true, err := false, ecode := 0, lastop := 0x07 }
        phase := .idle }

/-- READ_LUX_FLOAT completes with the decoded value in its five registers (R152, R147). -/
def Obligations.ReadLuxFloatCompletes : Prop :=
  ∀ (s : State) (reg b0 b1 : Byte), decode s.cur = some (.readLuxFloat reg) →
    s.pend = some (.read s.dev reg) → s.nextEvent = .ok b0 b1 →
    exec (.readLuxFloat reg) s = .next
      { s.consumeEvent with
        pend := none
        out := luxFloatRegs (s.readValue reg b0 b1) s.out
        status := { valid := true, err := false, ecode := 0, lastop := 0x08 }
        phase := .idle }

/-- DECODE_PAIR completes in one step with the decoded pair of its operands (R160, R161). -/
def Obligations.DecodePairCompletes : Prop :=
  ∀ (s : State) (f g : Half), decode s.cur = some (.decodePair f g) →
    exec (.decodePair f g) s = .next
      { s with
        out := pairRegs f g s.out
        status := { valid := true, err := false, ecode := 0, lastop := 0x09 }
        phase := .idle }

/-- DECODE_LUX completes in one step with the decoded lux value of its operand (R162, R163). -/
def Obligations.DecodeLuxCompletes : Prop :=
  ∀ (s : State) (r : Half), decode s.cur = some (.decodeLux r) →
    exec (.decodeLux r) s = .next
      { s with
        out := luxFloatRegs r s.out
        status := { valid := true, err := false, ecode := 0, lastop := 0x0A }
        phase := .idle }

/-! ### Exceptions and waiting -/

/-- READ_CHANNEL_ADC at offset `0xFF` raises AddrOverflow: no transaction, and `STATUS` only (R141, R204). -/
def Obligations.AddrOverflowWritesOnlyStatus : Prop :=
  ∀ s : State, s.pend = none → decode s.cur = some (.readChannelAdc 0xFF) →
    exec (.readChannelAdc 0xFF) s = .next
      { s with
        status := { valid := true, err := true, ecode := 3, lastop := 0x06 }
        phase := .idle }

/-- A transaction that fails or ends short ends its command with BusError, for every command and each of
its transactions: `STATUS` only, no retry, no later transaction (R102, R203, R142). Of the loopback device's
map (R38), no register changes but the target of a failed write (R107): for a failed write this is the
model's choice (log 7), for a failed read it is deduced (log 14), and of a real device it says nothing. -/
def Obligations.BusErrorWritesOnlyStatus : Prop :=
  ∀ (s : State) (i : Instr) (x : Transaction), decode s.cur = some i → s.pend = some x →
    x ∈ transactionsOf s.dev i → Fails s →
    ∃ t, exec i s = .next t ∧
      t.status = { valid := true, err := true, ecode := 1, lastop := i.mnemonic.op } ∧
      t.out = s.out ∧ t.phase = .idle ∧ t.pend = none ∧ t.latch0 = s.latch0 ∧ s.SameSession t ∧
      ∀ a : Nat, (∀ d r b0 b1, x = .write d r b0 b1 → r.toNat ≠ a) →
        t.devreg.read a = s.devreg.read a

/-- While its transaction has not returned, a command does nothing (R92, R94 b). That this wait is a step
which answers a state with no more than the event used up is deduced (log 6). -/
def Obligations.EngineWaitsForTheBus : Prop :=
  ∀ (s : State) (i : Instr) (x : Transaction), s.pend = some x → x ∈ transactionsOf s.dev i →
    s.nextEvent = .silent → exec i s = .next s.consumeEvent

/-- A transaction that does not return for `n` steps leaves the engine BUSY for `n` steps, with no
command taken and nothing changed but the bus agent's answers used up; a reset afterwards makes it
IDLE (R56, R206, R231). The host does nothing or holds an offer; one that pauses or watches BUSY meanwhile
is left out. That the wait is `n` steps, each using up one answer, is deduced (log 6) from how answers are
held (log 4), where R94 b says no step. That an offer at the head of the host's list keeps what follows it
waiting, a reset too, is the model's choice (log 3): with an offer held that BUSY lasts rests on it, and
with an empty list it is R206. -/
def Obligations.HungTransactionKeepsTheEngineBusy : Prop :=
  ∀ (s : State) (i : Instr) (x : Transaction) (n : Nat) (rest : List BusEvent),
    s.ParamsLegal → s.phase = .busy → decode s.cur = some i → s.pend = some x →
    x ∈ transactionsOf s.dev i → s.answers = silence n ++ rest →
    (s.host = [] ∨ ∃ w later, s.host = .offer w :: later) →
    after n s = .next { s with answers := rest } ∧
    ∃ t, step { s with answers := rest, host := [.reset] } = .next t ∧ t.phase = .idle

/-- The second read of READ_CHANNEL_ADC is issued only when the first has returned a value (R142, R65). -/
def Obligations.SecondReadOnlyAfterTheFirstReturned : Prop :=
  ∀ (s t : State) (a : Byte), exec (.readChannelAdc a) s = .next t →
    t.pend = some (.read s.dev (a + 1)) → s.pend ≠ some (.read s.dev (a + 1)) →
    a ≠ 0xFF ∧ s.pend = some (.read s.dev a) ∧
      ∃ b0 b1, s.nextEvent = .ok b0 b1 ∧ t.latch0 = s.readValue a b0 b1

/-- A command issues no transaction but those of its row of the table of R51, all addressed to
`SESSION.DEV` (R50, R51). -/
def Obligations.CommandsIssueOnlyTheirTransactions : Prop :=
  ∀ (s t : State) (i : Instr), exec i s = .next t →
    t.pend = none ∨ t.pend = s.pend ∨ ∃ x ∈ transactionsOf s.dev i, t.pend = some x

/-! ### The field decoder -/

/-- Each field of a decoded pair is the field of the table, by bits and by formula (R120, R123). -/
def Obligations.PairFieldsAreTheirBits : Prop :=
  ∀ f s : Half,
    (decodePair f s).exponent.toNat = f.toNat / 2 ^ 12 ∧
    (decodePair f s).resultMsb.toNat = f.toNat % 2 ^ 12 ∧
    (decodePair f s).resultLsb.toNat = s.toNat / 2 ^ 8 ∧
    (decodePair f s).counter.toNat = s.toNat % 2 ^ 8 / 2 ^ 4 ∧
    (decodePair f s).crc.toNat = s.toNat % 2 ^ 12 ∧
    (decodePair f s).mantissa = f.extractLsb' 0 12 ++ s.extractLsb' 8 8

/-- The ADC code is the exact integer, below `2 ^ 35`, with its greatest value exactly where R126 puts it;
the 40-bit register holds it (R124), and the host reads the whole of it from the ADC register of any legal
instance, whatever width from 35 on it has (R9, R127). That the register is stored at 40 bits and read at
`ADC_W` is the model's choice (log 9). -/
def Obligations.AdcCodeIsExactAndBelowTwoToThe35 : Prop :=
  ∀ (f s : Half) (o : DataRegs),
    (decodePair f s).adcCode = (decodePair f s).mantissa.toNat * 2 ^ (decodePair f s).exponent.toNat ∧
    (decodePair f s).adcCode ≤ 0x7FFFF8000 ∧ (decodePair f s).adcCode < 2 ^ 35 ∧
    ((decodePair f s).adcCode = 0x7FFFF8000 ↔ f = 0xFFFF ∧ s.extractLsb' 8 8 = 0xFF) ∧
    (commitPair f s o).adc.toNat = (decodePair f s).adcCode ∧
    ∀ m : State, m.ParamsLegal → m.out = commitPair f s o →
      m.adcPort.toNat = (decodePair f s).adcCode ∧ m.readOut .adc = (decodePair f s).adcCode

/-- Where 32 bits would lose data: never below exponent 13, at 13 only from mantissa `0x80000` on, and
there it does (R127). -/
def Obligations.ThirtyTwoBitsLoseDataFromExponentThirteen : Prop :=
  (∀ f s : Half, 2 ^ 32 ≤ (decodePair f s).adcCode →
    13 ≤ (decodePair f s).exponent.toNat ∧
    ((decodePair f s).exponent.toNat = 13 → 0x80000 ≤ (decodePair f s).mantissa.toNat)) ∧
  (∀ f s : Half, (decodePair f s).exponent.toNat = 13 → 0x80000 ≤ (decodePair f s).mantissa.toNat →
    2 ^ 32 ≤ (decodePair f s).adcCode) ∧
  (decodePair 0xD800 0x0000).adcCode = 0x100000000

/-- The further laws of the decoder, (a) to (e) (R128). -/
def Obligations.PairDecoderLaws : Prop :=
  ∀ f s : Half,
    ((decodePair f s).adcCode = 0 ↔ (decodePair f s).mantissa = 0) ∧
    ((decodePair f s).exponent = 0 → (decodePair f s).adcCode = (decodePair f s).mantissa.toNat) ∧
    (decodePair f s).adcCode % 2 ^ (decodePair f s).exponent.toNat = 0 ∧
    (∀ u : Half, u.extractLsb' 8 8 = s.extractLsb' 8 8 →
      (decodePair f u).adcCode = (decodePair f s).adcCode) ∧
    (∀ g : Half, (decodePair g s).counter = (decodePair f s).counter ∧
      (decodePair g s).crc = (decodePair f s).crc) ∧
    (decodePair f s).crc.extractLsb' 8 4 = (decodePair f s).resultLsb.extractLsb' 0 4 ∧
    (decodePair f s).crc.extractLsb' 4 4 = (decodePair f s).counter

/-- Fixed-point lux is exact, below `2 ^ 27`, and the 32-bit register holds it (R145, R146). -/
def Obligations.LuxFixedIsExactAndBelowTwoToThe27 : Prop :=
  ∀ (r : Half) (o : DataRegs),
    (decodeLux r).exponent.toNat = r.toNat / 2 ^ 12 ∧
    (decodeLux r).mantissa.toNat = r.toNat % 2 ^ 12 ∧
    (decodeLux r).fixed = (r.toNat % 2 ^ 12) * 2 ^ (r.toNat / 2 ^ 12) ∧
    (decodeLux r).fixed ≤ 0x7FF8000 ∧ (decodeLux r).fixed < 2 ^ 27 ∧
    (commitLuxFixed r o).luxfix.toNat = (decodeLux r).fixed

/-- `C001` is the binary64 value nearest to 0.01, ties to even (R13, R147; the format is log 11). -/
def Obligations.HundredthConstantIsNearest : Prop :=
  Binary64.IsNearest (1 / 100) Binary64.c001

/-- `LuxFloat` is correctly rounded: for every integer that fixed-point lux can be, the result is the
binary64 value nearest to the exact product with `C001`, ties to even (R147, R151, R13; log 11). -/
def Obligations.LuxFloatIsCorrectlyRounded : Prop :=
  ∀ n : Nat, n < 2 ^ 27 →
    Binary64.IsNearest ((n : ℚ) * Binary64.value Binary64.c001) (luxFloat n)

/-- Scaling the mantissa by a power of two before the multiplication or after it gives the same bits:
the exponent field grows by the exponent and nothing else changes (R148). -/
def Obligations.LuxFloatCommutesWithTheExponent : Prop :=
  ∀ m e : Nat, 0 < m → m < 2 ^ 12 → e < 2 ^ 4 →
    luxFloat (m * 2 ^ e) = luxFloat m + (BitVec.ofNat 64 e <<< 52)

/-- LUXFLT is never negative, infinite or a NaN, and is +0.0 exactly for zero (R151, R153). -/
def Obligations.LuxFloatIsFiniteAndNotNegative : Prop :=
  ∀ n : Nat, n < 2 ^ 27 →
    luxFloat n < Binary64.infinity ∧ (luxFloat n = 0 ↔ n = 0)

/-- After a READ_LUX_FLOAT or DECODE_LUX that completes with success, LUXFLT is the binary64 product of
LUXFIX and `C001`, bit for bit (R149). -/
def Obligations.LuxRegistersAgree : Prop :=
  ∀ (s t : State) (i : Instr),
    ((∃ reg, i = .readLuxFloat reg) ∨ ∃ r, i = .decodeLux r) →
    s.phase = .busy → exec i s = .next t → t.phase = .idle → t.status.err = false →
    t.out.luxflt = Binary64.mul (Binary64.ofNat t.out.luxfix.toNat) 0x3F847AE147AE147B

/-! ### Frames -/

/-- What READ16, READ_DEVICE_ID, READ_LUX_FIXED and READ_LUX_FLOAT leave unchanged, in every step that
answers a next state: the session, LATCH0, and every data register but those R24 lists for the command
(R24, R33); `STATUS` changes only when the command completes (R31). That every register of the loopback
device's map stays is R38, where only a write sets an entry, with log 14 (deduced); of a real device, where
a read may have side effects (R62), it says nothing. -/
def Obligations.SingleReadCommandsFrame : Prop :=
  ∀ (s t : State) (i : Instr) (reg : Byte),
    (i = .read16 reg ∨ i = .readDeviceId ∨ i = .readLuxFixed reg ∨ i = .readLuxFloat reg) →
    exec i s = .next t →
    s.SameSession t ∧ t.latch0 = s.latch0 ∧
    (∀ a : Nat, t.devreg.read a = s.devreg.read a) ∧
    (t.phase = .busy → t.status = s.status ∧ t.out = s.out) ∧
    (i = .read16 reg ∨ i = .readDeviceId → t.out = { s.out with raw0 := t.out.raw0 }) ∧
    (i = .readLuxFixed reg → t.out =
      { s.out with
        raw0 := t.out.raw0, exp := t.out.exp, mant := t.out.mant, luxfix := t.out.luxfix }) ∧
    (i = .readLuxFloat reg → t.out =
      { s.out with
        raw0 := t.out.raw0, exp := t.out.exp, mant := t.out.mant, luxfix := t.out.luxfix,
        luxflt := t.out.luxflt })

/-- What WRITE16, WRITE_CONFIG0 and WRITE_CONFIG1 leave unchanged, in every step that answers a next
state: the session, LATCH0, and every data register (R33, R104, R132, R134); `STATUS` changes only when the
command completes (R31). That of the loopback device's map no register changes but the one at the command's
own offset is R38, with log 7 (the model's choice) for a failed write; of a real device, where a write's
effect is unknown (R61), it says nothing. -/
def Obligations.WritingCommandsFrame : Prop :=
  ∀ (s t : State) (i : Instr) (reg : Byte) (v : Half) (target : Byte),
    ((i = .write16 reg v ∧ target = reg) ∨ (i = .writeConfig0 ∧ target = 0x0A) ∨
      (i = .writeConfig1 ∧ target = 0x0B)) →
    exec i s = .next t →
    s.SameSession t ∧ t.latch0 = s.latch0 ∧ t.out = s.out ∧
    (∀ a : Nat, a ≠ target.toNat → t.devreg.read a = s.devreg.read a) ∧
    (t.phase = .busy → t.status = s.status ∧ t.devreg = s.devreg)

/-- What READ_CHANNEL_ADC leaves unchanged, in every step that answers a next state: the session, LUXFIX
and LUXFLT, and all output registers until it completes (R24, R33, R142). That every register of the loopback
device's map stays is R38, with log 14 (deduced); of a real device, where a read may have side effects (R62),
it says nothing. -/
def Obligations.ReadChannelAdcFrame : Prop :=
  ∀ (s t : State) (a : Byte), exec (.readChannelAdc a) s = .next t →
    s.SameSession t ∧ (∀ b : Nat, t.devreg.read b = s.devreg.read b) ∧
    t.out.luxfix = s.out.luxfix ∧ t.out.luxflt = s.out.luxflt ∧
    (t.phase = .busy → t.status = s.status ∧ t.out = s.out) ∧
    (t.latch0 ≠ s.latch0 → s.pend = some (.read s.dev a) ∧ t.phase = s.phase)

/-- What DECODE_PAIR and DECODE_LUX leave unchanged: everything but `STATUS`, `PHASE` and the data
registers R24 lists for the command; the bus and the device are not touched (R33, R161, R163). -/
def Obligations.DecodeOnlyCommandsFrame : Prop :=
  (∀ (s t : State) (f g : Half), exec (.decodePair f g) s = .next t →
    t = { s with out := t.out, status := t.status, phase := t.phase } ∧
    t.out.luxfix = s.out.luxfix ∧ t.out.luxflt = s.out.luxflt) ∧
  ∀ (s t : State) (r : Half), exec (.decodeLux r) s = .next t →
    t = { s with out := t.out, status := t.status, phase := t.phase } ∧
    t.out.raw1 = s.out.raw1 ∧ t.out.rmsb = s.out.rmsb ∧ t.out.rlsb = s.out.rlsb ∧
    t.out.cnt = s.out.cnt ∧ t.out.crc = s.out.crc ∧ t.out.adc = s.out.adc

/-! ### The whole machine -/

/-- The output registers change only at a completion, all of them in that one step, in which BUSY falls;
reset apart (R31, R28). -/
def Obligations.OutputRegistersChangeOnlyAtCompletion : Prop :=
  ∀ s t : State, step s = .next t → NoReset s → (t.out ≠ s.out ∨ t.status ≠ s.status) →
    s.phase = .busy ∧ t.phase = .idle

/-- At every completion VALID is set, LASTOP is `CUR[47:40]`, and ERR and ECODE are written together
with one of the codes (R27, R29, R93, R201); a completion with an exception writes no data register (R32). -/
def Obligations.CompletionWritesStatus : Prop :=
  ∀ s t : State, step s = .next t → NoReset s → s.phase = .busy → t.phase = .idle →
    t.status.valid = true ∧ t.status.lastop = s.cur.extractLsb' 40 8 ∧
    ((t.status.err = false ∧ t.status.ecode = 0) ∨
      (t.status.err = true ∧ t.out = s.out ∧
        (t.status.ecode = 1 ∨ t.status.ecode = 2 ∨ t.status.ecode = 3)))

/-- `SESSION.DEV` is loaded from the parameter at reset, and no other step changes it (R22). -/
def Obligations.DeviceAddressChangesOnlyAtReset : Prop :=
  ∀ s t : State, step s = .next t →
    t.params = s.params ∧ (NoReset s → t.dev = s.dev) ∧
    (¬ NoReset s → t.dev.toNat = s.params.deviceAddr)

/-- The layout of `STATUS`: every field where R25 puts it, BUSY exactly while PHASE is BUSY, bit 7 zero
(R25, R28, R30). -/
def Obligations.StatusLayout : Prop :=
  ∀ s : State,
    s.statusWord.getLsbD 0 = s.status.valid ∧
    s.statusWord.getLsbD 1 = s.status.err ∧
    s.statusWord.extractLsb' 2 4 = s.status.ecode ∧
    (s.statusWord.getLsbD 6 = true ↔ s.phase = .busy) ∧
    s.statusWord.getLsbD 7 = false ∧
    s.statusWord.extractLsb' 8 8 = s.status.lastop

/-- The reset state meets the invariant. -/
def Obligations.ResetStateMeetsTheInvariant : Prop := State.reset.Inv

/-- Every step keeps the invariant: legal parameters, `SESSION.DEV` the instance's address (R22), the
canonical form of the device's registers, `PEND` a transaction of the running command (R23), a consistent
`STATUS` (R27, R201), reset values before the first completion (R26), and coherent data registers. -/
def Obligations.EveryStepKeepsTheInvariant : Prop :=
  ∀ s t : State, s.Inv → step s = .next t → t.Inv

/-- From a state that meets the invariant no number of steps stops with a fault or a refusal: an exception
of a command is no fault, and the engine goes on after it (R94, R208). That a wait answers a next state too is
deduced (log 6). -/
def Obligations.ConsistentMachineNeverStops : Prop :=
  ∀ s : State, s.Inv → s.NeverStops

/-- No command's behaviour depends on the output registers or on `STATUS`: with others in their place, a
step does the same to everything else, completes with the same `STATUS`, and each data register either gets
the same value or is left alone in both (R34, R33). -/
def Obligations.CommandsDoNotReadTheOutputRegisters : Prop :=
  ∀ (s t : State) (i : Instr) (o : DataRegs) (st : Status), exec i s = .next t →
    ∃ u, exec i { s with out := o, status := st } = .next u ∧
      u = { t with out := u.out, status := u.status } ∧
      (s.phase = .busy → t.phase = .idle → u.status = t.status) ∧
      (u.status = t.status ∨ (t.status = s.status ∧ u.status = st)) ∧
      WrittenAlikeOrKept s.out.raw0 t.out.raw0 o.raw0 u.out.raw0 ∧
      WrittenAlikeOrKept s.out.raw1 t.out.raw1 o.raw1 u.out.raw1 ∧
      WrittenAlikeOrKept s.out.exp t.out.exp o.exp u.out.exp ∧
      WrittenAlikeOrKept s.out.rmsb t.out.rmsb o.rmsb u.out.rmsb ∧
      WrittenAlikeOrKept s.out.rlsb t.out.rlsb o.rlsb u.out.rlsb ∧
      WrittenAlikeOrKept s.out.cnt t.out.cnt o.cnt u.out.cnt ∧
      WrittenAlikeOrKept s.out.crc t.out.crc o.crc u.out.crc ∧
      WrittenAlikeOrKept s.out.mant t.out.mant o.mant u.out.mant ∧
      WrittenAlikeOrKept s.out.adc t.out.adc o.adc u.out.adc ∧
      WrittenAlikeOrKept s.out.luxfix t.out.luxfix o.luxfix u.out.luxfix ∧
      WrittenAlikeOrKept s.out.luxflt t.out.luxflt o.luxflt u.out.luxflt

/-! ### Whole commands -/

/-- A whole READ_CHANNEL_ADC, from the offer to the completion, whatever time each read takes: the step
that completes it, and only that one, shows the decoded pair (R90 to R93, R140, R31). The device is
unconstrained. The number of steps, `4 + m + n`, is how the model cuts a step (deduced, log 1): the spec
counts none. -/
def Obligations.ReadChannelAdcFromOfferToCompletion : Prop :=
  ∀ (s : State) (a b0 b1 c0 c1 : Byte) (m n : Nat) (rest : List BusEvent),
    s.ParamsLegal → s.params.deviceModel = .unconstrained → s.phase = .idle → s.pend = none →
    a ≠ 0xFF → s.host = [.offer (encode (.readChannelAdc a))] →
    s.answers = silence m ++ [.ok b0 b1] ++ silence n ++ [.ok c0 c1] ++ rest →
    (∀ k, k < 4 + m + n → ∃ t, after k s = .next t ∧ t.out = s.out ∧ t.status = s.status ∧
      (0 < k → t.phase = .busy)) ∧
    ∃ t, after (4 + m + n) s = .next t ∧ t.phase = .idle ∧ t.pend = none ∧
      t.statusWord = 0x0601 ∧ t.out = pairRegs (b0 ++ b1) (c0 ++ c1) s.out ∧ t.answers = rest

/-- The round trip: under Loopback, WRITE16 and then READ16 at one offset, both ending with Ok, leave the
value written in RAW0, whatever time each takes and whatever bytes the device offered (R108). The number of
steps, `6 + m + n`, is how the model cuts a step (deduced, log 1): the spec counts none. -/
def Obligations.LoopbackRoundTrip : Prop :=
  ∀ (s : State) (a b0 b1 c0 c1 : Byte) (v : Half) (m n : Nat) (rest : List BusEvent),
    s.ParamsLegal → s.params.deviceModel = .loopback → s.phase = .idle → s.pend = none →
    s.host = [.offer (encode (.write16 a v)), .offer (encode (.read16 a))] →
    s.answers = silence m ++ [.ok b0 b1] ++ silence n ++ [.ok c0 c1] ++ rest →
    ∃ t, after (6 + m + n) s = .next t ∧ t.phase = .idle ∧ t.statusWord = 0x0101 ∧
      t.out = { s.out with raw0 := v }

/-- Every word completes: if the bus agent returns, in whatever way, whenever a transaction is
outstanding, the engine is IDLE again within four steps of the offer, with the completion recorded. The
premise about the bus is the only one (R239). The bound of four is how the model cuts a step (deduced,
log 1): R239 gives none. -/
def Obligations.EveryCommandCompletesWhenTheBusReturns : Prop :=
  ∀ (s : State) (w : CmdWord) (e1 e2 : BusEvent) (rest : List BusEvent),
    s.ParamsLegal → s.phase = .idle → s.pend = none → s.host = [.offer w] →
    s.answers = e1 :: e2 :: rest → e1 ≠ .silent → e2 ≠ .silent →
    ∃ n t, n ≤ 4 ∧ after n s = .next t ∧ t.phase = .idle ∧ t.pend = none ∧
      t.status.valid = true ∧ t.status.lastop = w.extractLsb' 40 8 ∧ t.host = []

/-- The decode-only commands, illegal words and AddrOverflow complete in two steps of the offer whatever
the bus does, and use none of its answers. R240 says a bounded number of engine steps; that the number is
two is how the model cuts a step (deduced, log 1). -/
def Obligations.CommandsWithoutTransactionCompleteInTwoSteps : Prop :=
  ∀ (s : State) (w : CmdWord),
    s.ParamsLegal → s.phase = .idle → s.pend = none → s.host = [.offer w] →
    (decode w = none ∨ ∃ i, decode w = some i ∧ transactionsOf s.dev i = []) →
    ∃ t, after 2 s = .next t ∧ t.phase = .idle ∧ t.status.valid = true ∧
      t.status.lastop = w.extractLsb' 40 8 ∧ t.answers = s.answers ∧ t.draws = s.draws

/-! ### Assembly -/

/-- The pseudo-commands expand as R89 says, and `READ_CHANNEL` takes no channel but 0 to 3. -/
def Obligations.PseudoCommandsExpand : Prop :=
  (∀ c : Nat, c < 4 → expandReadChannel c = some (.readChannelAdc (BitVec.ofNat 8 (2 * c)))) ∧
  (∀ c : Nat, 4 ≤ c → assemble (.readChannel c) = none) ∧
  assemble .initDefaults = some [encode .writeConfig0, encode .writeConfig1] ∧
  assemble .readId = some [encode .readDeviceId]

/-- The assembler, from the text of a line to its words (R88, R89). It refuses a line exactly when it is
not well formed; the words of a line of commands decode to those commands; `.word w` is the word `w`, legal
or not. Numerals are decimal or `0x` and hexadecimal; an `imm8` is a numeral or a name of R60, with its
offset, and any other name is refused. Each form of line has the operands R88 gives it, and a comment
changes nothing. One blank after the first word and `, ` between operands stand for the spacing that R88
does not fix (log 18). -/
def Obligations.AssemblerAcceptsExactlyWellFormedLines : Prop :=
  (∀ l : AsmLine, (assemble l).isSome = l.wellFormed) ∧
  (∀ (l : AsmLine) (is : List Instr), commandsOf l = some is →
    ∃ ws, assemble l = some ws ∧ ws.map decode = is.map some) ∧
  (∀ w : CmdWord, assemble (.word w.toNat) = some [w]) ∧
  (∀ n : Nat, numeral (Nat.toDigits 10 n) = some n ∧
    numeral ('0' :: 'x' :: Nat.toDigits 16 n) = some n) ∧
  (∀ (cs : List Char) (n : Nat), numeral cs = some n → imm8 cs = some (.num n)) ∧
  (∀ p ∈ namedOffsets, (imm8 p.1.toList).bind Imm8.value = some p.2) ∧
  (∀ a : String, numeral a.toList = none → (∀ p ∈ namedOffsets, a ≠ p.1) → imm8 a.toList = none) ∧
  (∀ a : String, Operand a →
    assembleText ("READ16 " ++ a) = (imm8 a.toList).bind (fun r => assemble (.read16 r)) ∧
    assembleText ("READ_CHANNEL_ADC " ++ a) =
      (imm8 a.toList).bind (fun r => assemble (.readChannelAdc r)) ∧
    assembleText ("READ_LUX_FIXED " ++ a) =
      (imm8 a.toList).bind (fun r => assemble (.readLuxFixed r)) ∧
    assembleText ("READ_LUX_FLOAT " ++ a) =
      (imm8 a.toList).bind (fun r => assemble (.readLuxFloat r)) ∧
    assembleText ("DECODE_LUX " ++ a) = (numeral a.toList).bind (fun v => assemble (.decodeLux v)) ∧
    assembleText ("READ_CHANNEL " ++ a) =
      (numeral a.toList).bind (fun c => assemble (.readChannel c)) ∧
    assembleText (".word " ++ a) = (numeral a.toList).bind (fun w => assemble (.word w))) ∧
  (∀ a b : String, Operand a → Operand b →
    assembleText ("WRITE16 " ++ a ++ ", " ++ b) = (imm8 a.toList).bind (fun r =>
      (numeral b.toList).bind fun v => assemble (.write16 r v)) ∧
    assembleText ("DECODE_PAIR " ++ a ++ ", " ++ b) = (numeral a.toList).bind (fun f =>
      (numeral b.toList).bind fun g => assemble (.decodePair f g))) ∧
  assembleText "READ_DEVICE_ID" = assemble .readDeviceId ∧
  assembleText "WRITE_CONFIG0" = assemble .writeConfig0 ∧
  assembleText "WRITE_CONFIG1" = assemble .writeConfig1 ∧
  assembleText "INIT_DEFAULTS" = assemble .initDefaults ∧
  assembleText "READ_ID" = assemble .readId ∧
  (∀ t comment : String, assembleText (t ++ ";" ++ comment) = assembleText t)
end

