-- ==== Sys2Proof/Laws/Assembler.lean ====
section
/-! SUPPORT. The text layer of the assembler: what trimming, cutting at commas and reading numerals do, so that
a claim about a line of text need not unfold `parseLine` (30_encoding.md R88). -/

namespace Sys2Proof.Machine

/-- Text with no blank, comma or semicolon: one word or one operand. -/
def PlainText (cs : List Char) : Prop := ∀ c ∈ cs, isBlank c = false ∧ c ≠ ',' ∧ c ≠ ';'

/-- The same as a computation, for a given word. -/
theorem plainText_of_all {cs : List Char}
    (h : (cs.all fun c => !isBlank c && c != ',' && c != ';') = true) : PlainText cs := by
  simpa [PlainText, and_assoc] using h

/-! ### Trimming and cutting -/

@[simp] theorem trim_nil : trim [] = [] := rfl

theorem trim_cons_blank {c : Char} (hc : isBlank c = true) (cs : List Char) :
    trim (c :: cs) = trim cs := by
  simp [trim, List.dropWhile, hc]

/-- Text that begins and ends with no blank is left as it is. -/
theorem trim_of_ends {cs : List Char} (hh : ∀ c, cs.head? = some c → isBlank c = false)
    (hl : ∀ c, cs.getLast? = some c → isBlank c = false) : trim cs = cs := by
  have hd : ∀ {ds : List Char}, (∀ c, ds.head? = some c → isBlank c = false) →
      ds.dropWhile isBlank = ds := by
    intro ds h
    cases ds with
    | nil => rfl
    | cons d ds => simp [List.dropWhile, h d rfl]
  rw [trim, hd hh, hd (by simpa [List.head?_reverse] using hl), List.reverse_reverse]

theorem PlainText.trim {cs : List Char} (h : PlainText cs) : trim cs = cs :=
  trim_of_ends (fun c hc => (h c (List.mem_of_mem_head? (by simp [hc]))).1)
    (fun c hc => (h c (List.mem_of_getLast? hc)).1)

@[simp] theorem splitCommas_comma (cs : List Char) : splitCommas (',' :: cs) = [] :: splitCommas cs := by
  simp [splitCommas]

/-- Text with no comma is one piece. -/
theorem splitCommas_of_no_comma {cs : List Char} (h : ∀ c ∈ cs, c ≠ ',') : splitCommas cs = [cs] := by
  induction cs with
  | nil => rfl
  | cons c cs ih =>
    rw [List.forall_mem_cons] at h
    simp [splitCommas, h.1, ih h.2]

/-- The text before the first comma is the first piece. -/
theorem splitCommas_append_comma {cs : List Char} (h : ∀ c ∈ cs, c ≠ ',') (ds : List Char) :
    splitCommas (cs ++ ',' :: ds) = cs :: splitCommas ds := by
  induction cs with
  | nil => simp
  | cons c cs ih =>
    rw [List.forall_mem_cons] at h
    simp [splitCommas, h.1, ih h.2]

/-- A blank at the end is trimmed away. -/
theorem trim_append_blank (cs : List Char) : trim (cs ++ [' ']) = trim cs := by
  induction cs with
  | nil => rfl
  | cons c cs ih =>
    by_cases hc : isBlank c = true
    · rw [List.cons_append, trim_cons_blank hc, trim_cons_blank hc, ih]
    · have hb : isBlank ' ' = true := rfl
      simp [trim, List.dropWhile, hc, hb]

/-! ### Lines -/

/-- The words before a line's comment, as `lineOf` gets them: the first word, and the operands. -/
theorem parseLine_of {text : String} {word rest : List Char}
    (hc : trim (text.toList.takeWhile fun c => c ≠ ';') = word ++ ' ' :: rest) (hw : PlainText word) :
    parseLine text =
      lineOf word (if trim rest = [] then [] else (splitCommas (trim rest)).map trim) := by
  have ht : (word ++ ' ' :: rest).takeWhile (fun c => !isBlank c) = word := by
    rw [List.takeWhile_append_of_pos (fun c hc => by simp [(hw c hc).1])]
    simp [List.takeWhile, isBlank]
  have hd : (word ++ ' ' :: rest).dropWhile (fun c => !isBlank c) = ' ' :: rest := by
    rw [List.dropWhile_append_of_pos (fun c hc => by simp [(hw c hc).1])]
    simp [List.dropWhile, isBlank]
  simp only [parseLine, hc, ht, hd, trim_cons_blank (c := ' ') rfl]

theorem takeWhile_no_comment {cs : List Char} (h : ∀ c ∈ cs, c ≠ ';') :
    (cs.takeWhile fun c => c ≠ ';') = cs :=
  List.takeWhile_eq_self_iff.mpr fun c hc => by simpa using h c hc

/-- A line that begins and ends with no blank and has no comment: its words are those of `lineOf`. -/
theorem assembleText_of {text : String} {word rest : List Char}
    (ht : text.toList = word ++ ' ' :: rest) (hw : PlainText word) (h0 : word ≠ [])
    (hr : ∀ c ∈ rest, c ≠ ';') (hl : ∀ c, rest.getLast? = some c → isBlank c = false)
    (hn : rest ≠ []) :
    assembleText text =
      (lineOf word (if trim rest = [] then [] else (splitCommas (trim rest)).map trim)).bind
        assemble := by
  have hk : (text.toList.takeWhile fun c => c ≠ ';') = word ++ ' ' :: rest := by
    rw [ht, takeWhile_no_comment]
    intro c hc
    rcases List.mem_append.mp hc with hc | hc
    · exact (hw c hc).2.2
    · rcases List.mem_cons.mp hc with rfl | hc
      · decide
      · exact hr c hc
  have hc : trim (word ++ ' ' :: rest) = word ++ ' ' :: rest := by
    refine trim_of_ends (fun c hc => ?_) (fun c hc => hl c ?_)
    · rw [List.head?_append_of_ne_nil _ h0] at hc
      exact (hw c (List.mem_of_mem_head? (by simp [hc]))).1
    · obtain ⟨x, xs, rfl⟩ := List.exists_cons_of_ne_nil hn
      rw [List.getLast?_append_of_ne_nil _ (by simp), List.getLast?_cons_cons] at hc
      exact hc
  have he : ¬ trim (text.toList.takeWhile fun c => c ≠ ';') = [] := by
    rw [hk, hc]
    simp
  rw [assembleText, if_neg he, parseLine_of ((congrArg trim hk).trans hc) hw]

/-- A line of one word and a blank. -/
theorem assembleText_blank {text : String} {word : List Char} (ht : text.toList = word ++ [' '])
    (hw : PlainText word) (h0 : word ≠ []) :
    assembleText text = (lineOf word []).bind assemble := by
  have hk : (text.toList.takeWhile fun c => c ≠ ';') = word ++ [' '] := by
    rw [ht, takeWhile_no_comment]
    intro c hc
    rcases List.mem_append.mp hc with hc | hc
    · exact (hw c hc).2.2
    · rcases List.mem_singleton.mp hc
      decide
  have hb : ∀ c ∈ word, (!isBlank c) = true := fun c hc => by simp [(hw c hc).1]
  simp only [assembleText, parseLine, hk, trim_append_blank, hw.trim,
    List.takeWhile_eq_self_iff.mpr hb, h0, if_false]
  rw [List.dropWhile_eq_nil_iff.mpr hb]
  rfl

/-- A line of one word and one operand, which may be empty. -/
theorem assembleText_one_operand {text : String} {word a : List Char}
    (ht : text.toList = word ++ ' ' :: a) (hw : PlainText word) (h0 : word ≠ []) (ha : PlainText a) :
    assembleText text = (lineOf word (if a = [] then [] else [a])).bind assemble := by
  by_cases hn : a = []
  · subst hn
    exact assembleText_blank ht hw h0
  · rw [assembleText_of ht hw h0 (fun c hc => (ha c hc).2.2)
      (fun c hc => (ha c (List.mem_of_getLast? hc)).1) hn, ha.trim,
      splitCommas_of_no_comma fun c hc => (ha c hc).2.1]
    simp only [List.map, ha.trim]

/-- A blank at the end of a line changes nothing. -/
theorem assembleText_append_blank {text line : String} (ht : text.toList = line.toList ++ [' '])
    (hn : ∀ c ∈ line.toList, c ≠ ';') : assembleText text = assembleText line := by
  have hk : (text.toList.takeWhile fun c => c ≠ ';') = line.toList ++ [' '] := by
    rw [ht, takeWhile_no_comment]
    intro c hc
    rcases List.mem_append.mp hc with hc | hc
    · exact hn c hc
    · rcases List.mem_singleton.mp hc
      decide
  simp only [assembleText, parseLine, hk, trim_append_blank, takeWhile_no_comment hn]

/-- A line of one word and two operands, each of which may be empty. -/
theorem assembleText_two_operands {text : String} {word a b : List Char}
    (ht : text.toList = word ++ ' ' :: (a ++ ',' :: ' ' :: b)) (hw : PlainText word)
    (h0 : word ≠ []) (ha : PlainText a) (hb : PlainText b) :
    assembleText text = (lineOf word [a, b]).bind assemble := by
  have hcut : ∀ d : List Char, (∀ c ∈ d, c ≠ ',' ∧ c ≠ ';') →
      (∀ c, (',' :: d).getLast? = some c → isBlank c = false) → trim d = b → ∀ line : String,
      line.toList = word ++ ' ' :: (a ++ ',' :: d) →
      assembleText line = (lineOf word [a, b]).bind assemble := by
    intro d hm hl hdb line hline
    have hlast : ∀ c, (a ++ ',' :: d).getLast? = some c → isBlank c = false := by
      intro c hc
      rw [List.getLast?_append_of_ne_nil _ (by simp)] at hc
      exact hl c hc
    have htrim : trim (a ++ ',' :: d) = a ++ ',' :: d := by
      refine trim_of_ends (fun c hc => ?_) hlast
      cases a with
      | nil => cases hc; decide
      | cons x xs => cases hc; exact (ha _ (by simp)).1
    rw [assembleText_of hline hw h0 ?_ hlast (by simp), htrim, if_neg (by simp),
      splitCommas_append_comma fun c hc => (ha c hc).2.1,
      splitCommas_of_no_comma fun c hc => (hm c hc).1]
    · simp only [List.map, ha.trim, hdb]
    · intro c hc
      rcases List.mem_append.mp hc with hc | hc
      · exact (ha c hc).2.2
      · rcases List.mem_cons.mp hc with rfl | hc
        · decide
        · exact (hm c hc).2
  by_cases hn : b = []
  · subst hn
    have hline : (String.ofList (word ++ ' ' :: (a ++ [',']))).toList = word ++ ' ' :: (a ++ [',']) := by
      simp
    rw [assembleText_append_blank (line := String.ofList (word ++ ' ' :: (a ++ [',']))) ?_ ?_]
    · refine hcut [] (by simp) (fun c hc => ?_) rfl _ hline
      cases hc
      decide
    · rw [ht, hline]
      simp
    · rw [hline]
      intro c hc
      simp only [List.mem_append, List.mem_cons, List.not_mem_nil, or_false] at hc
      rcases hc with hc | rfl | hc | rfl
      · exact (hw c hc).2.2
      · decide
      · exact (ha c hc).2.2
      · decide
  · refine hcut (' ' :: b) ?_ ?_ ?_ text ht
    · intro c hc
      rcases List.mem_cons.mp hc with rfl | hc
      · decide
      · exact ⟨(hb c hc).2.1, (hb c hc).2.2⟩
    · intro c hc
      obtain ⟨x, xs, rfl⟩ := List.exists_cons_of_ne_nil hn
      rw [List.getLast?_cons_cons, List.getLast?_cons_cons] at hc
      exact (hb c (List.mem_of_getLast? hc)).1
    · rw [trim_cons_blank rfl, hb.trim]

/-- A comment changes nothing (R88). -/
theorem takeWhile_comment (t u : String) :
    (t ++ ";" ++ u).toList.takeWhile (fun c => c ≠ ';') = t.toList.takeWhile fun c => c ≠ ';' := by
  simp only [String.toList_append]
  induction t.toList with
  | nil => rfl
  | cons c cs ih =>
    by_cases h : c = ';'
    · simp [List.takeWhile, h]
    · simpa [List.takeWhile, h] using ih

theorem parseLine_comment (t u : String) : parseLine (t ++ ";" ++ u) = parseLine t := by
  simp only [parseLine, takeWhile_comment]

theorem assembleText_comment (t u : String) : assembleText (t ++ ";" ++ u) = assembleText t := by
  simp only [assembleText, takeWhile_comment, parseLine_comment]

/-! ### Numerals -/

/-- A digit's character gives the digit back. -/
theorem hexDigit_digitChar {d : Nat} (h : d < 16) : hexDigit d.digitChar = some d := by
  revert d
  decide

/-- Digits are read from the most significant on, so that a last one is added at the end. -/
theorem digits_append (base acc : Nat) (cs ds : List Char) :
    digits base acc (cs ++ ds) = (digits base acc cs).bind fun a => digits base a ds := by
  induction cs generalizing acc with
  | nil => rfl
  | cons c cs ih =>
    simp only [List.cons_append, digits]
    cases hexDigit c with
    | none => rfl
    | some d =>
      by_cases hd : d < base
      · simp [hd, ih]
      · simp [hd]

/-- The digits of a number in a base up to 16 are read as that number. -/
theorem digits_toDigits {base : Nat} (h2 : 2 ≤ base) (h16 : base ≤ 16) (n : Nat) :
    digits base 0 (Nat.toDigits base n) = some n := by
  induction n using Nat.strongRecOn with
  | ind n ih =>
    by_cases hn : n < base
    · rw [Nat.toDigits_of_lt_base hn]
      simp [digits, hexDigit_digitChar (by omega : n < 16), hn]
    · have hd : n % base < base := Nat.mod_lt _ (by omega)
      rw [Nat.toDigits_of_base_le (by omega) (by omega), digits_append,
        ih (n / base) (Nat.div_lt_self (by omega) (by omega))]
      simp [digits, hexDigit_digitChar (by omega : n % base < 16), hd, Nat.div_add_mod']

end Sys2Proof.Machine
end

