-- ==== Sys2Proof/Laws/Decode.lean ====
section
/-! SUPPORT. The fields and the word of a command determine each other (30_encoding.md R80), and the small
lemmas of the decoder. -/

namespace Sys2Proof

/-- The fields of a word built from fields are those fields. -/
@[simp] theorem toCmd_toWord (c : Cmd) : CmdWord.toCmd c.toWord = c := by
  obtain ⟨op, reg, d0, d1⟩ := c
  simp only [CmdWord.toCmd, Cmd.toWord, Cmd.mk.injEq]
  refine ⟨?_, ?_, ?_, ?_⟩ <;> apply BitVec.eq_of_getLsbD_eq <;> intro i hi <;>
    simp only [BitVec.getLsbD_extractLsb', BitVec.getLsbD_append, hi, decide_true, Bool.true_and]
  · rw [if_neg (by omega), if_neg (by omega), if_neg (by omega),
      show 40 + i - 16 - 16 - 8 = i by omega]
  · rw [if_neg (by omega), if_neg (by omega), if_pos (by omega),
      show 32 + i - 16 - 16 = i by omega]
  · rw [if_neg (by omega), if_pos (by omega), show 16 + i - 16 = i by omega]
  · rw [if_pos (by omega), show 0 + i = i by omega]

/-- The word built from the fields of a word is that word. -/
@[simp] theorem toWord_toCmd (w : CmdWord) : (CmdWord.toCmd w).toWord = w := by
  simp only [CmdWord.toCmd, Cmd.toWord]
  apply BitVec.eq_of_getLsbD_eq
  intro i hi
  simp only [BitVec.getLsbD_extractLsb', BitVec.getLsbD_append]
  by_cases h1 : i < 16
  · simp [h1]
  · by_cases h2 : i - 16 < 16
    · simp [h1, h2]; congr 1; omega
    · by_cases h3 : i - 16 - 16 < 8
      · simp [h1, h2, h3]; congr 1; omega
      · simp [h1, h2, h3, show i - 16 - 16 - 8 < 8 by omega]; congr 1; omega

/-- The fields that a command is encoded into. -/
@[simp] theorem toCmd_encode (i : Instr) : CmdWord.toCmd (encode i) = i.toCmd := toCmd_toWord _

/-- `OP` of a mnemonic selects that mnemonic. -/
@[simp] theorem ofOp_op (m : Mnemonic) : Mnemonic.ofOp m.op = some m := by cases m <;> decide

/-- Only its own `OP` selects a mnemonic. -/
theorem op_of_ofOp {op : Byte} {m : Mnemonic} (h : Mnemonic.ofOp op = some m) : m.op = op := by
  simpa using List.find?_some h

/-- What decoding a word to a command says of its fields. -/
theorem decode_eq_some {w : CmdWord} {i : Instr} (h : decode w = some i) :
    ∃ m, m.op = (CmdWord.toCmd w).op ∧ (CmdWord.toCmd w).reservedZero m = true ∧
      m.build (CmdWord.toCmd w) = i := by
  simp only [decode, Cmd.decode] at h
  split at h
  · rename_i j hj
    split at hj
    · cases hj
    · rename_i m hm
      split at hj
      · rename_i hr
        cases hj
        cases h
        exact ⟨m, op_of_ofOp hm, hr, rfl⟩
      · cases hj
  · cases h
  · cases h

/-- Building gives a command of the row. -/
@[simp] theorem mnemonic_build (m : Mnemonic) (c : Cmd) : (m.build c).mnemonic = m := by
  cases m <;> rfl

/-- The `OP` field of a word that decodes to a command is the row's. -/
theorem op_of_decode {w : CmdWord} {i : Instr} (h : decode w = some i) :
    (CmdWord.toCmd w).op = i.mnemonic.op := by
  obtain ⟨m, hm, -, rfl⟩ := decode_eq_some h
  rw [mnemonic_build, hm]

end Sys2Proof
end

