-- ==== Sys2Proof/Laws/Memory.lean ====
section
/-! SUPPORT. The laws of the loopback device's registers: a read after a write, other offsets left alone,
and the canonical form kept (10_state.md R38). -/

namespace Sys2Proof.Machine.Memory

@[simp] theorem read_nil (a : Nat) : Memory.read [] a = none := rfl

theorem read_cons (p : Nat × Half) (m : Memory) (a : Nat) :
    Memory.read (p :: m) a = if a = p.1 then some p.2 else Memory.read m a := rfl

/-- Reading where something was just written gives what was written. -/
@[simp] theorem read_write_same (m : Memory) (a : Nat) (v : Half) :
    Memory.read (Memory.write m a v) a = some v := by
  induction m with
  | nil => simp [Memory.write, read_cons]
  | cons p m ih =>
    obtain ⟨b, w⟩ := p
    simp only [Memory.write]
    split
    · simp [read_cons]
    · split
      · simp [read_cons]
      · rename_i h
        rw [read_cons, if_neg (by simpa using h)]
        exact ih

/-- A write leaves every other offset alone. -/
theorem read_write_other (m : Memory) {a b : Nat} (v : Half) (h : b ≠ a) :
    Memory.read (Memory.write m a v) b = Memory.read m b := by
  induction m with
  | nil => simp [Memory.write, read_cons, h]
  | cons p m ih =>
    obtain ⟨c, w⟩ := p
    simp only [Memory.write]
    split
    · simp [read_cons, h]
    · split
      · rename_i hac
        subst hac
        simp [read_cons, h]
      · simp [read_cons, ih]

/-- After an erasure the offset is UNWRITTEN. -/
@[simp] theorem read_erase_same (m : Memory) (a : Nat) : Memory.read (Memory.erase m a) a = none := by
  induction m with
  | nil => rfl
  | cons p m ih =>
    obtain ⟨b, w⟩ := p
    by_cases h : b = a
    · simpa [Memory.erase, h] using ih
    · simpa [Memory.erase, h, read_cons, Ne.symm h] using ih

/-- An erasure leaves every other offset alone. -/
theorem read_erase_other (m : Memory) {a b : Nat} (h : b ≠ a) :
    Memory.read (Memory.erase m a) b = Memory.read m b := by
  induction m with
  | nil => rfl
  | cons p m ih =>
    obtain ⟨c, w⟩ := p
    by_cases hc : c = a
    · subst hc
      simpa [Memory.erase, read_cons, h] using ih
    · have ih' : Memory.read (m.filter fun p => p.1 ≠ a) b = Memory.read m b := ih
      by_cases hb : b = c
      · simp [Memory.erase, hc, read_cons, hb]
      · simpa [Memory.erase, hc, read_cons, hb] using ih'

/-- `put` is what the offset then reads as. -/
@[simp] theorem read_put_same (m : Memory) (a : Nat) (v : Option Half) :
    Memory.read (Memory.put m a v) a = v := by
  cases v <;> simp [Memory.put]

/-- `put` leaves every other offset alone. -/
theorem read_put_other (m : Memory) {a b : Nat} (v : Option Half) (h : b ≠ a) :
    Memory.read (Memory.put m a v) b = Memory.read m b := by
  cases v with
  | none => exact read_erase_other m h
  | some v => exact read_write_other m v h

/-- The offsets after a write are those before it and the one written. -/
theorem mem_write {m : Memory} {a : Nat} {v : Half} {p : Nat × Half}
    (h : p ∈ Memory.write m a v) : p = (a, v) ∨ p ∈ m := by
  induction m with
  | nil => simpa [Memory.write] using h
  | cons q m ih =>
    obtain ⟨b, w⟩ := q
    simp only [Memory.write] at h
    split at h
    · simpa using h
    · split at h
      · rcases List.mem_cons.mp h with h | h
        · exact .inl h
        · exact .inr (List.mem_cons_of_mem _ h)
      · rcases List.mem_cons.mp h with h | h
        · exact .inr (by simp [h])
        · exact (ih h).imp_right (List.mem_cons_of_mem _)

/-- A write at an 8-bit offset keeps the canonical form. -/
theorem wf_write {m : Memory} (h : Memory.wf m) {a : Nat} (ha : a < 256) (v : Half) :
    Memory.wf (Memory.write m a v) := by
  refine ⟨?_, fun p hp => ?_⟩
  · have hs := h.1
    clear h
    induction m with
    | nil => simp [Memory.write]
    | cons q m ih =>
      obtain ⟨b, w⟩ := q
      rw [List.pairwise_cons] at hs
      simp only [Memory.write]
      split
      · rename_i hab
        refine List.pairwise_cons.mpr ⟨fun p hp => ?_, List.pairwise_cons.mpr hs⟩
        rcases List.mem_cons.mp hp with rfl | hp
        · exact hab
        · exact Nat.lt_trans hab (hs.1 p hp)
      · split
        · rename_i hab
          subst hab
          exact List.pairwise_cons.mpr hs
        · refine List.pairwise_cons.mpr ⟨fun p hp => ?_, ih hs.2⟩
          rcases mem_write hp with rfl | hp
          · change b < a
            omega
          · exact hs.1 p hp
  · rcases mem_write hp with rfl | hp
    · exact ha
    · exact h.2 p hp

/-- An erasure keeps the canonical form. -/
theorem wf_erase {m : Memory} (h : Memory.wf m) (a : Nat) : Memory.wf (Memory.erase m a) :=
  ⟨h.1.filter _, fun p hp => h.2 p (List.mem_filter.mp hp).1⟩

/-- Every operation on the registers keeps the canonical form. -/
theorem wf_put {m : Memory} (h : Memory.wf m) {a : Nat} (ha : a < 256) (v : Option Half) :
    Memory.wf (Memory.put m a v) := by
  cases v with
  | none => exact wf_erase h a
  | some v => exact wf_write h ha v

/-- The reset memory has the canonical form. -/
theorem wf_reset : Memory.wf State.reset.devreg := by decide

end Sys2Proof.Machine.Memory
end

