-- ==== Sys2Proof/Laws/State.lean ====
section
/-! SUPPORT. For each operation on the state, one lemma per field: what it writes there, or that it leaves it. -/

namespace Sys2Proof.Machine.State

/-! ### complete -/

@[simp] theorem complete_params (c : DataRegs → DataRegs) (s : State) : (s.complete c).params = s.params := rfl
@[simp] theorem complete_dev (c : DataRegs → DataRegs) (s : State) : (s.complete c).dev = s.dev := rfl
@[simp] theorem complete_phase (c : DataRegs → DataRegs) (s : State) : (s.complete c).phase = .idle := rfl
@[simp] theorem complete_cur (c : DataRegs → DataRegs) (s : State) : (s.complete c).cur = s.cur := rfl
@[simp] theorem complete_latch0 (c : DataRegs → DataRegs) (s : State) : (s.complete c).latch0 = s.latch0 := rfl
@[simp] theorem complete_pend (c : DataRegs → DataRegs) (s : State) : (s.complete c).pend = s.pend := rfl
@[simp] theorem complete_status (c : DataRegs → DataRegs) (s : State) : (s.complete c).status = Status.success s.cur.toCmd.op := rfl
@[simp] theorem complete_out (c : DataRegs → DataRegs) (s : State) : (s.complete c).out = c s.out := rfl
@[simp] theorem complete_devreg (c : DataRegs → DataRegs) (s : State) : (s.complete c).devreg = s.devreg := rfl
@[simp] theorem complete_host (c : DataRegs → DataRegs) (s : State) : (s.complete c).host = s.host := rfl
@[simp] theorem complete_answers (c : DataRegs → DataRegs) (s : State) : (s.complete c).answers = s.answers := rfl
@[simp] theorem complete_draws (c : DataRegs → DataRegs) (s : State) : (s.complete c).draws = s.draws := rfl

/-! ### raise -/

@[simp] theorem raise_params (e : Exception) (s : State) : (s.raise e).params = s.params := rfl
@[simp] theorem raise_dev (e : Exception) (s : State) : (s.raise e).dev = s.dev := rfl
@[simp] theorem raise_phase (e : Exception) (s : State) : (s.raise e).phase = .idle := rfl
@[simp] theorem raise_cur (e : Exception) (s : State) : (s.raise e).cur = s.cur := rfl
@[simp] theorem raise_latch0 (e : Exception) (s : State) : (s.raise e).latch0 = s.latch0 := rfl
@[simp] theorem raise_pend (e : Exception) (s : State) : (s.raise e).pend = s.pend := rfl
@[simp] theorem raise_status (e : Exception) (s : State) : (s.raise e).status = Status.failure e s.cur.toCmd.op := rfl
@[simp] theorem raise_out (e : Exception) (s : State) : (s.raise e).out = s.out := rfl
@[simp] theorem raise_devreg (e : Exception) (s : State) : (s.raise e).devreg = s.devreg := rfl
@[simp] theorem raise_host (e : Exception) (s : State) : (s.raise e).host = s.host := rfl
@[simp] theorem raise_answers (e : Exception) (s : State) : (s.raise e).answers = s.answers := rfl
@[simp] theorem raise_draws (e : Exception) (s : State) : (s.raise e).draws = s.draws := rfl

/-! ### issue -/

@[simp] theorem issue_params (x : Transaction) (s : State) : (s.issue x).params = s.params := rfl
@[simp] theorem issue_dev (x : Transaction) (s : State) : (s.issue x).dev = s.dev := rfl
@[simp] theorem issue_phase (x : Transaction) (s : State) : (s.issue x).phase = s.phase := rfl
@[simp] theorem issue_cur (x : Transaction) (s : State) : (s.issue x).cur = s.cur := rfl
@[simp] theorem issue_latch0 (x : Transaction) (s : State) : (s.issue x).latch0 = s.latch0 := rfl
@[simp] theorem issue_pend (x : Transaction) (s : State) : (s.issue x).pend = some x := rfl
@[simp] theorem issue_status (x : Transaction) (s : State) : (s.issue x).status = s.status := rfl
@[simp] theorem issue_out (x : Transaction) (s : State) : (s.issue x).out = s.out := rfl
@[simp] theorem issue_devreg (x : Transaction) (s : State) : (s.issue x).devreg = s.devreg := rfl
@[simp] theorem issue_host (x : Transaction) (s : State) : (s.issue x).host = s.host := rfl
@[simp] theorem issue_answers (x : Transaction) (s : State) : (s.issue x).answers = s.answers := rfl
@[simp] theorem issue_draws (x : Transaction) (s : State) : (s.issue x).draws = s.draws := rfl

/-! ### retire -/

@[simp] theorem retire_params (s : State) : s.retire.params = s.params := rfl
@[simp] theorem retire_dev (s : State) : s.retire.dev = s.dev := rfl
@[simp] theorem retire_phase (s : State) : s.retire.phase = s.phase := rfl
@[simp] theorem retire_cur (s : State) : s.retire.cur = s.cur := rfl
@[simp] theorem retire_latch0 (s : State) : s.retire.latch0 = s.latch0 := rfl
@[simp] theorem retire_pend (s : State) : s.retire.pend = none := rfl
@[simp] theorem retire_status (s : State) : s.retire.status = s.status := rfl
@[simp] theorem retire_out (s : State) : s.retire.out = s.out := rfl
@[simp] theorem retire_devreg (s : State) : s.retire.devreg = s.devreg := rfl
@[simp] theorem retire_host (s : State) : s.retire.host = s.host := rfl
@[simp] theorem retire_answers (s : State) : s.retire.answers = s.answers := rfl
@[simp] theorem retire_draws (s : State) : s.retire.draws = s.draws := rfl

/-! ### latch -/

@[simp] theorem latch_params (v : Half) (s : State) : (s.latch v).params = s.params := rfl
@[simp] theorem latch_dev (v : Half) (s : State) : (s.latch v).dev = s.dev := rfl
@[simp] theorem latch_phase (v : Half) (s : State) : (s.latch v).phase = s.phase := rfl
@[simp] theorem latch_cur (v : Half) (s : State) : (s.latch v).cur = s.cur := rfl
@[simp] theorem latch_latch0 (v : Half) (s : State) : (s.latch v).latch0 = v := rfl
@[simp] theorem latch_pend (v : Half) (s : State) : (s.latch v).pend = s.pend := rfl
@[simp] theorem latch_status (v : Half) (s : State) : (s.latch v).status = s.status := rfl
@[simp] theorem latch_out (v : Half) (s : State) : (s.latch v).out = s.out := rfl
@[simp] theorem latch_devreg (v : Half) (s : State) : (s.latch v).devreg = s.devreg := rfl
@[simp] theorem latch_host (v : Half) (s : State) : (s.latch v).host = s.host := rfl
@[simp] theorem latch_answers (v : Half) (s : State) : (s.latch v).answers = s.answers := rfl
@[simp] theorem latch_draws (v : Half) (s : State) : (s.latch v).draws = s.draws := rfl

/-! ### accept -/

@[simp] theorem accept_params (w : CmdWord) (s : State) : (s.accept w).params = s.params := rfl
@[simp] theorem accept_dev (w : CmdWord) (s : State) : (s.accept w).dev = s.dev := rfl
@[simp] theorem accept_phase (w : CmdWord) (s : State) : (s.accept w).phase = .busy := rfl
@[simp] theorem accept_cur (w : CmdWord) (s : State) : (s.accept w).cur = w := rfl
@[simp] theorem accept_latch0 (w : CmdWord) (s : State) : (s.accept w).latch0 = s.latch0 := rfl
@[simp] theorem accept_pend (w : CmdWord) (s : State) : (s.accept w).pend = s.pend := rfl
@[simp] theorem accept_status (w : CmdWord) (s : State) : (s.accept w).status = s.status := rfl
@[simp] theorem accept_out (w : CmdWord) (s : State) : (s.accept w).out = s.out := rfl
@[simp] theorem accept_devreg (w : CmdWord) (s : State) : (s.accept w).devreg = s.devreg := rfl
@[simp] theorem accept_host (w : CmdWord) (s : State) : (s.accept w).host = s.host := rfl
@[simp] theorem accept_answers (w : CmdWord) (s : State) : (s.accept w).answers = s.answers := rfl
@[simp] theorem accept_draws (w : CmdWord) (s : State) : (s.accept w).draws = s.draws := rfl

/-! ### withCommand -/

@[simp] theorem withCommand_params (s : State) (w : CmdWord) : (s.withCommand w).params = s.params := rfl
@[simp] theorem withCommand_dev (s : State) (w : CmdWord) : (s.withCommand w).dev = s.dev := rfl
@[simp] theorem withCommand_phase (s : State) (w : CmdWord) : (s.withCommand w).phase = .busy := rfl
@[simp] theorem withCommand_cur (s : State) (w : CmdWord) : (s.withCommand w).cur = w := rfl
@[simp] theorem withCommand_latch0 (s : State) (w : CmdWord) : (s.withCommand w).latch0 = s.latch0 := rfl
@[simp] theorem withCommand_pend (s : State) (w : CmdWord) : (s.withCommand w).pend = none := rfl
@[simp] theorem withCommand_status (s : State) (w : CmdWord) : (s.withCommand w).status = s.status := rfl
@[simp] theorem withCommand_out (s : State) (w : CmdWord) : (s.withCommand w).out = s.out := rfl
@[simp] theorem withCommand_devreg (s : State) (w : CmdWord) : (s.withCommand w).devreg = s.devreg := rfl
@[simp] theorem withCommand_host (s : State) (w : CmdWord) : (s.withCommand w).host = [] := rfl
@[simp] theorem withCommand_answers (s : State) (w : CmdWord) : (s.withCommand w).answers = s.answers := rfl
@[simp] theorem withCommand_draws (s : State) (w : CmdWord) : (s.withCommand w).draws = s.draws := rfl

/-! ### consumeEvent -/

@[simp] theorem consumeEvent_params (s : State) : s.consumeEvent.params = s.params := by
  unfold consumeEvent; split <;> rfl
@[simp] theorem consumeEvent_dev (s : State) : s.consumeEvent.dev = s.dev := by
  unfold consumeEvent; split <;> rfl
@[simp] theorem consumeEvent_phase (s : State) : s.consumeEvent.phase = s.phase := by
  unfold consumeEvent; split <;> rfl
@[simp] theorem consumeEvent_cur (s : State) : s.consumeEvent.cur = s.cur := by
  unfold consumeEvent; split <;> rfl
@[simp] theorem consumeEvent_latch0 (s : State) : s.consumeEvent.latch0 = s.latch0 := by
  unfold consumeEvent; split <;> rfl
@[simp] theorem consumeEvent_pend (s : State) : s.consumeEvent.pend = s.pend := by
  unfold consumeEvent; split <;> rfl
@[simp] theorem consumeEvent_status (s : State) : s.consumeEvent.status = s.status := by
  unfold consumeEvent; split <;> rfl
@[simp] theorem consumeEvent_out (s : State) : s.consumeEvent.out = s.out := by
  unfold consumeEvent; split <;> rfl
@[simp] theorem consumeEvent_devreg (s : State) : s.consumeEvent.devreg = s.devreg := by
  unfold consumeEvent; split <;> rfl
@[simp] theorem consumeEvent_host (s : State) : s.consumeEvent.host = s.host := by
  unfold consumeEvent; split <;> rfl

/-! ### deviceStore -/

@[simp] theorem deviceStore_params (reg : Byte) (v : Half) (s : State) : (s.deviceStore reg v).params = s.params := by
  unfold deviceStore; split <;> rfl
@[simp] theorem deviceStore_dev (reg : Byte) (v : Half) (s : State) : (s.deviceStore reg v).dev = s.dev := by
  unfold deviceStore; split <;> rfl
@[simp] theorem deviceStore_phase (reg : Byte) (v : Half) (s : State) : (s.deviceStore reg v).phase = s.phase := by
  unfold deviceStore; split <;> rfl
@[simp] theorem deviceStore_cur (reg : Byte) (v : Half) (s : State) : (s.deviceStore reg v).cur = s.cur := by
  unfold deviceStore; split <;> rfl
@[simp] theorem deviceStore_latch0 (reg : Byte) (v : Half) (s : State) : (s.deviceStore reg v).latch0 = s.latch0 := by
  unfold deviceStore; split <;> rfl
@[simp] theorem deviceStore_pend (reg : Byte) (v : Half) (s : State) : (s.deviceStore reg v).pend = s.pend := by
  unfold deviceStore; split <;> rfl
@[simp] theorem deviceStore_status (reg : Byte) (v : Half) (s : State) : (s.deviceStore reg v).status = s.status := by
  unfold deviceStore; split <;> rfl
@[simp] theorem deviceStore_out (reg : Byte) (v : Half) (s : State) : (s.deviceStore reg v).out = s.out := by
  unfold deviceStore; split <;> rfl
@[simp] theorem deviceStore_host (reg : Byte) (v : Half) (s : State) : (s.deviceStore reg v).host = s.host := by
  unfold deviceStore; split <;> rfl
@[simp] theorem deviceStore_answers (reg : Byte) (v : Half) (s : State) : (s.deviceStore reg v).answers = s.answers := by
  unfold deviceStore; split <;> rfl
@[simp] theorem deviceStore_draws (reg : Byte) (v : Half) (s : State) : (s.deviceStore reg v).draws = s.draws := by
  unfold deviceStore; split <;> rfl

/-! ### deviceUnknown -/

@[simp] theorem deviceUnknown_params (reg : Byte) (s : State) : (s.deviceUnknown reg).params = s.params := by
  unfold deviceUnknown; split <;> rfl
@[simp] theorem deviceUnknown_dev (reg : Byte) (s : State) : (s.deviceUnknown reg).dev = s.dev := by
  unfold deviceUnknown; split <;> rfl
@[simp] theorem deviceUnknown_phase (reg : Byte) (s : State) : (s.deviceUnknown reg).phase = s.phase := by
  unfold deviceUnknown; split <;> rfl
@[simp] theorem deviceUnknown_cur (reg : Byte) (s : State) : (s.deviceUnknown reg).cur = s.cur := by
  unfold deviceUnknown; split <;> rfl
@[simp] theorem deviceUnknown_latch0 (reg : Byte) (s : State) : (s.deviceUnknown reg).latch0 = s.latch0 := by
  unfold deviceUnknown; split <;> rfl
@[simp] theorem deviceUnknown_pend (reg : Byte) (s : State) : (s.deviceUnknown reg).pend = s.pend := by
  unfold deviceUnknown; split <;> rfl
@[simp] theorem deviceUnknown_status (reg : Byte) (s : State) : (s.deviceUnknown reg).status = s.status := by
  unfold deviceUnknown; split <;> rfl
@[simp] theorem deviceUnknown_out (reg : Byte) (s : State) : (s.deviceUnknown reg).out = s.out := by
  unfold deviceUnknown; split <;> rfl
@[simp] theorem deviceUnknown_host (reg : Byte) (s : State) : (s.deviceUnknown reg).host = s.host := by
  unfold deviceUnknown; split <;> rfl
@[simp] theorem deviceUnknown_answers (reg : Byte) (s : State) : (s.deviceUnknown reg).answers = s.answers := by
  unfold deviceUnknown; split <;> rfl

/-! ### cutOff -/

@[simp] theorem cutOff_params (s : State) : s.cutOff.params = s.params := by
  unfold cutOff; split <;> simp
@[simp] theorem cutOff_dev (s : State) : s.cutOff.dev = s.dev := by
  unfold cutOff; split <;> simp
@[simp] theorem cutOff_phase (s : State) : s.cutOff.phase = s.phase := by
  unfold cutOff; split <;> simp
@[simp] theorem cutOff_cur (s : State) : s.cutOff.cur = s.cur := by
  unfold cutOff; split <;> simp
@[simp] theorem cutOff_latch0 (s : State) : s.cutOff.latch0 = s.latch0 := by
  unfold cutOff; split <;> simp
@[simp] theorem cutOff_pend (s : State) : s.cutOff.pend = s.pend := by
  unfold cutOff; split <;> simp
@[simp] theorem cutOff_status (s : State) : s.cutOff.status = s.status := by
  unfold cutOff; split <;> simp
@[simp] theorem cutOff_out (s : State) : s.cutOff.out = s.out := by
  unfold cutOff; split <;> simp
@[simp] theorem cutOff_host (s : State) : s.cutOff.host = s.host := by
  unfold cutOff; split <;> simp
@[simp] theorem cutOff_answers (s : State) : s.cutOff.answers = s.answers := by
  unfold cutOff; split <;> simp

/-! ### applyReset -/

@[simp] theorem applyReset_params (s : State) : s.applyReset.params = s.params := by
  simp [applyReset]
@[simp] theorem applyReset_dev (s : State) : s.applyReset.dev = BitVec.ofNat 7 s.params.deviceAddr := by
  simp [applyReset]
@[simp] theorem applyReset_phase (s : State) : s.applyReset.phase = .idle := by
  simp [applyReset]
@[simp] theorem applyReset_cur (s : State) : s.applyReset.cur = 0 := by
  simp [applyReset]
@[simp] theorem applyReset_latch0 (s : State) : s.applyReset.latch0 = 0 := by
  simp [applyReset]
@[simp] theorem applyReset_pend (s : State) : s.applyReset.pend = none := by
  simp [applyReset]
@[simp] theorem applyReset_status (s : State) : s.applyReset.status = {} := by
  simp [applyReset]
@[simp] theorem applyReset_out (s : State) : s.applyReset.out = {} := by
  simp [applyReset]
@[simp] theorem applyReset_devreg (s : State) : s.applyReset.devreg = s.cutOff.devreg := by
  simp [applyReset]
@[simp] theorem applyReset_host (s : State) : s.applyReset.host = s.host := by
  simp [applyReset]
@[simp] theorem applyReset_answers (s : State) : s.applyReset.answers = s.answers := by
  simp [applyReset]
@[simp] theorem applyReset_draws (s : State) : s.applyReset.draws = s.cutOff.draws := by
  simp [applyReset]

end Sys2Proof.Machine.State
end

