-- ==== Sys2Proof/Laws/Ops.lean ====
section
/-! SUPPORT. For each shared operation, one lemma that says everything it can do; the provers cite these
instead of unfolding the operations. -/

namespace Sys2Proof.Machine

/-- The offset after `a` is `a + 1`, unless `a` is the last (R141). -/
theorem nextOffset_eq (a : Byte) : nextOffset a = if a = 0xFF then none else some (a + 1) := by
  revert a; decide

theorem highByte_eq (v : Half) : highByte v = v.extractLsb' 8 8 := by
  apply BitVec.eq_of_getLsbD_eq; intro i hi; simp [highByte, hi]

theorem lowByte_eq (v : Half) : lowByte v = v.extractLsb' 0 8 := by
  apply BitVec.eq_of_toNat_eq
  simp only [lowByte, BitVec.toNat_setWidth, BitVec.toNat_and, BitVec.extractLsb'_toNat,
    Nat.shiftRight_zero]
  rw [show BitVec.toNat (255 : BitVec 16) = 2 ^ 8 - 1 from rfl, Nat.and_two_pow_sub_one_eq_mod,
    Nat.mod_mod]

/-- The bytes of a register value, joined in order, give it back (R53). -/
@[simp] theorem joinBytes_high_low (v : Half) : joinBytes (highByte v) (lowByte v) = v := by
  rw [highByte_eq, lowByte_eq, joinBytes]
  apply BitVec.eq_of_getLsbD_eq
  intro i hi
  rw [BitVec.getLsbD_append]
  split
  · simp [*]
  · simp [show i - 8 < 8 by omega, show 8 + (i - 8) = i by omega]

namespace State

variable {s t : State} {reg : Byte} {v : Half}

theorem deviceStore_read_other (a : Nat) (h : a ≠ reg.toNat) :
    (s.deviceStore reg v).devreg.read a = s.devreg.read a := by
  unfold deviceStore; split
  · rfl
  · exact Memory.read_put_other s.devreg (some v) h

theorem deviceUnknown_read_other (a : Nat) (h : a ≠ reg.toNat) :
    (s.deviceUnknown reg).devreg.read a = s.devreg.read a := by
  unfold deviceUnknown; split
  · rfl
  · exact Memory.read_put_other _ _ h

theorem deviceStore_wf (h : Memory.wf s.devreg) : Memory.wf (s.deviceStore reg v).devreg := by
  unfold deviceStore; split
  · exact h
  · exact Memory.wf_put h reg.isLt (some v)

theorem deviceUnknown_wf (h : Memory.wf s.devreg) : Memory.wf (s.deviceUnknown reg).devreg := by
  unfold deviceUnknown; split
  · exact h
  · exact Memory.wf_put h reg.isLt _

theorem cutOff_wf (h : Memory.wf s.devreg) : Memory.wf s.cutOff.devreg := by
  unfold cutOff; split
  · exact deviceUnknown_wf h
  · exact h
  · exact h

/-- What a wait for a read can do. -/
theorem awaitRead_cases {k : Half → State → Result} (h : s.awaitRead reg k = .next t) :
    (s.nextEvent = .silent ∧ t = s.consumeEvent) ∨
    (∃ b0 b1, s.nextEvent = .ok b0 b1 ∧
      k (s.readValue reg b0 b1) s.consumeEvent.retire = .next t) ∨
    (((∃ x, s.nextEvent = .short x) ∨ s.nextEvent = .fail) ∧
      t = s.consumeEvent.retire.raise .busError) := by
  unfold awaitRead at h
  split at h
  · rename_i e; cases h; exact .inl ⟨e, rfl⟩
  · rename_i b0 b1 e; exact .inr (.inl ⟨b0, b1, e, h⟩)
  · rename_i x e; cases h; exact .inr (.inr ⟨.inl ⟨x, e⟩, rfl⟩)
  · rename_i e; cases h; exact .inr (.inr ⟨.inr e, rfl⟩)

/-- What a wait for a write can do. -/
theorem awaitWrite_cases {k : State → Result} (h : s.awaitWrite reg v k = .next t) :
    (s.nextEvent = .silent ∧ t = s.consumeEvent) ∨
    ((∃ b0 b1, s.nextEvent = .ok b0 b1) ∧
      k (s.consumeEvent.retire.deviceStore reg v) = .next t) ∨
    (((∃ x, s.nextEvent = .short x) ∨ s.nextEvent = .fail) ∧
      t = (s.consumeEvent.retire.deviceUnknown reg).raise .busError) := by
  unfold awaitWrite at h
  split at h
  · rename_i e; cases h; exact .inl ⟨e, rfl⟩
  · rename_i b0 b1 e; exact .inr (.inl ⟨⟨b0, b1, e⟩, h⟩)
  · rename_i x e; cases h; exact .inr (.inr ⟨.inl ⟨x, e⟩, rfl⟩)
  · rename_i e; cases h; exact .inr (.inr ⟨.inr e, rfl⟩)

/-- What a command with one read can do in a step. -/
theorem memRead_cases {k : Half → State → Result} (h : s.memRead reg k = .next t) :
    (s.pend = none ∧ t = s.issue (.read s.dev reg)) ∨
    (s.pend = some (.read s.dev reg) ∧ s.awaitRead reg k = .next t) := by
  unfold memRead at h
  split at h
  · rename_i e; cases h; exact .inl ⟨e, rfl⟩
  · rename_i x e
    split at h
    · rename_i hx; subst hx; exact .inr ⟨e, h⟩
    · cases h

/-- What a command with one write can do in a step. -/
theorem memWrite_cases {k : State → Result} (h : s.memWrite reg v k = .next t) :
    (s.pend = none ∧ t = s.issue (.write s.dev reg (highByte v) (lowByte v))) ∨
    (s.pend = some (.write s.dev reg (highByte v) (lowByte v)) ∧
      s.awaitWrite reg v k = .next t) := by
  unfold memWrite at h
  split at h
  · rename_i e; cases h; exact .inl ⟨e, rfl⟩
  · rename_i x e
    split at h
    · rename_i hx; subst hx; exact .inr ⟨e, h⟩
    · cases h

/-! #### The same operations forwards: what each does in each situation -/

theorem awaitRead_silent (k : Half → State → Result) (he : s.nextEvent = .silent) :
    s.awaitRead reg k = .next s.consumeEvent := by
  simp only [awaitRead, he]

theorem awaitRead_ok (k : Half → State → Result) {b0 b1 : Byte} (he : s.nextEvent = .ok b0 b1) :
    s.awaitRead reg k = k (s.readValue reg b0 b1) s.consumeEvent.retire := by
  simp only [awaitRead, he]

theorem awaitRead_failed (k : Half → State → Result)
    (he : (∃ x, s.nextEvent = .short x) ∨ s.nextEvent = .fail) :
    s.awaitRead reg k = .next (s.consumeEvent.retire.raise .busError) := by
  rcases he with ⟨x, he⟩ | he <;> simp only [awaitRead, he]

theorem awaitWrite_silent (k : State → Result) (he : s.nextEvent = .silent) :
    s.awaitWrite reg v k = .next s.consumeEvent := by
  simp only [awaitWrite, he]

theorem awaitWrite_ok (k : State → Result) {b0 b1 : Byte} (he : s.nextEvent = .ok b0 b1) :
    s.awaitWrite reg v k = k (s.consumeEvent.retire.deviceStore reg v) := by
  simp only [awaitWrite, he]

theorem awaitWrite_failed (k : State → Result)
    (he : (∃ x, s.nextEvent = .short x) ∨ s.nextEvent = .fail) :
    s.awaitWrite reg v k = .next ((s.consumeEvent.retire.deviceUnknown reg).raise .busError) := by
  rcases he with ⟨x, he⟩ | he <;> simp only [awaitWrite, he]

theorem memRead_none (k : Half → State → Result) (hp : s.pend = none) :
    s.memRead reg k = .next (s.issue (.read s.dev reg)) := by
  simp only [memRead, hp, readTransaction]

theorem memRead_pending (k : Half → State → Result) (hp : s.pend = some (.read s.dev reg)) :
    s.memRead reg k = s.awaitRead reg k := by
  simp only [memRead, hp, readTransaction, if_true]

theorem memWrite_none (k : State → Result) (hp : s.pend = none) :
    s.memWrite reg v k = .next (s.issue (.write s.dev reg (highByte v) (lowByte v))) := by
  simp only [memWrite, hp, writeTransaction]

theorem memWrite_pending (k : State → Result)
    (hp : s.pend = some (.write s.dev reg (highByte v) (lowByte v))) :
    s.memWrite reg v k = s.awaitWrite reg v k := by
  simp only [memWrite, hp, writeTransaction, if_true]

end State

/-- What READ_CHANNEL_ADC can do in a step (R140 to R142). -/
theorem execReadChannelAdc_cases {s t : State} {a : Byte} (h : execReadChannelAdc a s = .next t) :
    (a = 0xFF ∧ s.pend = none ∧ t = s.raise .addrOverflow) ∨
    (a ≠ 0xFF ∧ s.pend = none ∧ t = s.issue (.read s.dev a)) ∨
    (a ≠ 0xFF ∧ s.pend = some (.read s.dev a) ∧
      s.awaitRead a (fun v u => .next ((u.latch v).issue (.read u.dev (a + 1)))) = .next t) ∨
    (a ≠ 0xFF ∧ s.pend = some (.read s.dev (a + 1)) ∧
      s.awaitRead (a + 1) (fun v u => .next (u.complete (commitPair u.latch0 v))) = .next t) := by
  unfold execReadChannelAdc at h
  rw [nextOffset_eq] at h
  by_cases ha : a = 0xFF
  · rw [if_pos ha] at h
    split at h <;> simp_all
  · rw [if_neg ha] at h
    split at h
    · simp_all
    · simp_all
    · rename_i hp; cases h; exact .inr (.inl ⟨ha, hp, rfl⟩)
    · rename_i b x hb hp
      cases hb
      split at h
      · rename_i hx; subst hx; exact .inr (.inr (.inl ⟨ha, hp, h⟩))
      · split at h
        · rename_i hx; subst hx; exact .inr (.inr (.inr ⟨ha, hp, h⟩))
        · cases h

/-- The next offset is another one. -/
theorem add_one_ne (a : Byte) : a + 1 ≠ a := by revert a; decide

theorem execReadChannelAdc_overflow {s : State} (hp : s.pend = none) :
    execReadChannelAdc 0xFF s = .next (s.raise .addrOverflow) := by
  simp only [execReadChannelAdc, nextOffset_eq, if_true, hp]

theorem execReadChannelAdc_none {s : State} {a : Byte} (ha : a ≠ 0xFF) (hp : s.pend = none) :
    execReadChannelAdc a s = .next (s.issue (.read s.dev a)) := by
  simp only [execReadChannelAdc, nextOffset_eq, if_neg ha, hp, State.readTransaction]

theorem execReadChannelAdc_first {s : State} {a : Byte} (ha : a ≠ 0xFF)
    (hp : s.pend = some (.read s.dev a)) :
    execReadChannelAdc a s =
      s.awaitRead a fun v u => .next ((u.latch v).issue (.read u.dev (a + 1))) := by
  simp only [execReadChannelAdc, nextOffset_eq, if_neg ha, hp, State.readTransaction, if_true]

theorem execReadChannelAdc_second {s : State} {a : Byte} (ha : a ≠ 0xFF)
    (hp : s.pend = some (.read s.dev (a + 1))) :
    execReadChannelAdc a s =
      s.awaitRead (a + 1) fun v u => .next (u.complete (commitPair u.latch0 v)) := by
  have h : Transaction.read s.dev (a + 1) ≠ .read s.dev a := fun e =>
    add_one_ne a (Transaction.read.inj e).2
  simp only [execReadChannelAdc, nextOffset_eq, if_neg ha, hp, State.readTransaction, if_neg h,
    if_true]

/-- What the host's part of a step can be. -/
theorem State.hostTurn_cases (s : State) :
    (s.host = [] ∧ s.hostTurn = .engine s) ∨
    (∃ rest, s.host = .pause :: rest ∧ s.hostTurn = .engine { s with host := rest }) ∨
    (∃ rest, s.host = .awaitIdle :: rest ∧ s.phase = .idle ∧
      s.hostTurn = .engine { s with host := rest }) ∨
    (∃ rest, s.host = .awaitIdle :: rest ∧ s.phase = .busy ∧ s.hostTurn = .engine s) ∨
    (∃ rest, s.host = .reset :: rest ∧ s.hostTurn = .taken { s.applyReset with host := rest }) ∨
    (∃ w rest, s.host = .offer w :: rest ∧ s.phase = .idle ∧
      s.hostTurn = .taken { s.accept w with host := rest }) ∨
    (∃ w rest, s.host = .offer w :: rest ∧ s.phase = .busy ∧ s.hostTurn = .engine s) := by
  unfold hostTurn
  rcases hh : s.host with _ | ⟨_ | _ | _ | _, rest⟩ <;> rcases hp : s.phase with _ | _ <;> simp

/-- What a step that answers a next state can have been. -/
theorem step_cases {s t : State} (h : step s = .next t) :
    paramRefusal s.params = none ∧
    (s.hostTurn = .taken t ∨
      ∃ u, s.hostTurn = .engine u ∧
        ((u.phase = .idle ∧ t = u) ∨
         (u.phase = .busy ∧ ∃ i, decode u.cur = some i ∧ exec i u = .next t) ∨
         (u.phase = .busy ∧ decode u.cur = none ∧ t = u.raise .illegalCommand))) := by
  unfold step at h
  split at h
  · cases h
  · rename_i hp
    refine ⟨hp, ?_⟩
    split at h
    · rename_i e; cases h; exact .inl e
    · rename_i u e
      refine .inr ⟨u, e, ?_⟩
      unfold State.work at h
      rcases hph : u.phase with _ | _
      · rw [hph] at h; cases h; exact .inl ⟨rfl, rfl⟩
      · rw [hph] at h
        rcases hd : decode u.cur with _ | i
        · rw [hd] at h; cases h; exact .inr (.inr ⟨rfl, rfl, rfl⟩)
        · rw [hd] at h; exact .inr (.inl ⟨rfl, i, rfl, h⟩)

/-- The engine runs the decoded command. -/
theorem step_run {s u : State} {i : Instr} (hp : paramRefusal s.params = none)
    (ht : s.hostTurn = .engine u) (hb : u.phase = .busy) (hd : decode u.cur = some i) :
    step s = exec i u := by
  simp [step, hp, ht, State.work, hb, hd]

/-- Legal parameters are not refused (R94). -/
theorem paramRefusal_none {p : Params} (h : 35 ≤ p.adcW ∧ p.deviceAddr ≤ 0x7F) :
    paramRefusal p = none := by
  have h1 : ¬ p.adcW < Config.minAdcW := Nat.not_lt.mpr h.1
  have h2 : ¬ Config.maxDeviceAddr < p.deviceAddr := Nat.not_lt.mpr h.2
  simp [paramRefusal, h1, h2]

end Sys2Proof.Machine
end

