-- ==== Sys2Proof/Laws/Exec.lean ====
section
/-! SUPPORT. Everything one engine step of a command can do, said once for all ten commands: claims about
`exec` and `step` follow from `exec_cases` without unfolding a meaning. -/

namespace Sys2Proof.Machine

/-- How a command completes with success: from the state `s` in which it does, the state `u` in which its
commit block `c` is applied. -/
inductive Committed (s : State) : Instr → State → (DataRegs → DataRegs) → Prop where
  | read16 {reg b0 b1 : Byte} (hp : s.pend = some (.read s.dev reg)) (he : s.nextEvent = .ok b0 b1) :
      Committed s (.read16 reg) s.consumeEvent.retire (commitRaw (s.readValue reg b0 b1))
  | readDeviceId {b0 b1 : Byte} (hp : s.pend = some (.read s.dev 0x11))
      (he : s.nextEvent = .ok b0 b1) :
      Committed s .readDeviceId s.consumeEvent.retire (commitRaw (s.readValue 0x11 b0 b1))
  | write16 {reg b0 b1 : Byte} {v : Half} (hp : s.pend = some (writeOf s.dev reg v))
      (he : s.nextEvent = .ok b0 b1) :
      Committed s (.write16 reg v) (s.consumeEvent.retire.deviceStore reg v) commitNothing
  | writeConfig0 {b0 b1 : Byte} (hp : s.pend = some (writeOf s.dev 0x0A 0xC838))
      (he : s.nextEvent = .ok b0 b1) :
      Committed s .writeConfig0 (s.consumeEvent.retire.deviceStore 0x0A 0xC838) commitNothing
  | writeConfig1 {b0 b1 : Byte} (hp : s.pend = some (writeOf s.dev 0x0B 0x4011))
      (he : s.nextEvent = .ok b0 b1) :
      Committed s .writeConfig1 (s.consumeEvent.retire.deviceStore 0x0B 0x4011) commitNothing
  | readChannelAdc {a b0 b1 : Byte} (ha : a ≠ 0xFF) (hp : s.pend = some (.read s.dev (a + 1)))
      (he : s.nextEvent = .ok b0 b1) :
      Committed s (.readChannelAdc a) s.consumeEvent.retire
        (commitPair s.latch0 (s.readValue (a + 1) b0 b1))
  | readLuxFixed {reg b0 b1 : Byte} (hp : s.pend = some (.read s.dev reg))
      (he : s.nextEvent = .ok b0 b1) :
      Committed s (.readLuxFixed reg) s.consumeEvent.retire
        (commitLuxFixed (s.readValue reg b0 b1))
  | readLuxFloat {reg b0 b1 : Byte} (hp : s.pend = some (.read s.dev reg))
      (he : s.nextEvent = .ok b0 b1) :
      Committed s (.readLuxFloat reg) s.consumeEvent.retire
        (commitLuxFloat (s.readValue reg b0 b1))
  | decodePair {f g : Half} : Committed s (.decodePair f g) s (commitPair f g)
  | decodeLux {r : Half} : Committed s (.decodeLux r) s (commitLuxFloat r)

/-- How a command ends with BusError: the state `u` in which the exception is raised. -/
inductive Aborted (s : State) : Transaction → State → Prop where
  | read {d : DevAddr} {reg : Byte} : Aborted s (.read d reg) s.consumeEvent.retire
  | write {d : DevAddr} {reg b0 b1 : Byte} :
      Aborted s (.write d reg b0 b1) (s.consumeEvent.retire.deviceUnknown reg)

/-- The outcomes of one engine step of the command `i`. -/
inductive Did (i : Instr) (s : State) : State → Prop where
  /-- It issued its first transaction. -/
  | issued {x : Transaction} (hp : s.pend = none) (hx : (transactionsOf s.dev i).head? = some x) :
      Did i s (s.issue x)
  /-- It waited. -/
  | waited {x : Transaction} (hp : s.pend = some x) (hx : x ∈ transactionsOf s.dev i)
      (he : s.nextEvent = .silent) : Did i s s.consumeEvent
  /-- It ended with BusError. -/
  | aborted {x : Transaction} {u : State} (hp : s.pend = some x) (hx : x ∈ transactionsOf s.dev i)
      (he : (∃ y, s.nextEvent = .short y) ∨ s.nextEvent = .fail) (hu : Aborted s x u) :
      Did i s (u.raise .busError)
  /-- It ended with AddrOverflow. -/
  | overflowed (hi : i = .readChannelAdc 0xFF) (hp : s.pend = none) :
      Did i s (s.raise .addrOverflow)
  /-- It received the first value of a pair and issued the second read. -/
  | latched {a b0 b1 : Byte} (hi : i = .readChannelAdc a) (ha : a ≠ 0xFF)
      (hp : s.pend = some (.read s.dev a)) (he : s.nextEvent = .ok b0 b1) :
      Did i s ((s.consumeEvent.retire.latch (s.readValue a b0 b1)).issue (.read s.dev (a + 1)))
  /-- It completed with success. -/
  | committed {u : State} {c : DataRegs → DataRegs} (hc : Committed s i u c) :
      Did i s (u.complete c)

theorem writeOf_eq (d : DevAddr) (reg : Byte) (v : Half) :
    writeOf d reg v = .write d reg (highByte v) (lowByte v) := by
  rw [writeOf, highByte_eq, lowByte_eq]

theorem transactionsOf_readChannelAdc (d : DevAddr) {a : Byte} (ha : a ≠ 0xFF) :
    transactionsOf d (.readChannelAdc a) = [.read d a, .read d (a + 1)] := if_neg ha

namespace State

variable {s t : State} {i : Instr} {reg : Byte} {v : Half}

/-- A command with one read, as an outcome. -/
theorem memRead_did {c : Half → DataRegs → DataRegs}
    (hx : transactionsOf s.dev i = [.read s.dev reg])
    (hc : ∀ b0 b1, s.pend = some (.read s.dev reg) → s.nextEvent = .ok b0 b1 →
      Committed s i s.consumeEvent.retire (c (s.readValue reg b0 b1)))
    (h : s.memRead reg (fun v u => .next (u.complete (c v))) = .next t) : Did i s t := by
  rcases memRead_cases h with ⟨hp, rfl⟩ | ⟨hp, h⟩
  · exact .issued hp (by simp [hx])
  · have hm : .read s.dev reg ∈ transactionsOf s.dev i := by simp [hx]
    rcases awaitRead_cases h with ⟨he, rfl⟩ | ⟨b0, b1, he, h⟩ | ⟨he, rfl⟩
    · exact .waited hp hm he
    · cases h
      exact .committed (hc b0 b1 hp he)
    · exact .aborted hp hm he .read

/-- A command with one write, as an outcome. -/
theorem memWrite_did (hx : transactionsOf s.dev i = [writeOf s.dev reg v])
    (hc : ∀ b0 b1, s.pend = some (writeOf s.dev reg v) → s.nextEvent = .ok b0 b1 →
      Committed s i (s.consumeEvent.retire.deviceStore reg v) commitNothing)
    (h : s.memWrite reg v (fun u => .next (u.complete commitNothing)) = .next t) : Did i s t := by
  rcases memWrite_cases h with ⟨hp, rfl⟩ | ⟨hp, h⟩ <;> rw [writeOf_eq] at hx hc
  · exact .issued hp (by simp [hx])
  · have hm := List.mem_singleton_self (Transaction.write s.dev reg (highByte v) (lowByte v))
    rw [← hx] at hm
    rcases awaitWrite_cases h with ⟨he, rfl⟩ | ⟨⟨b0, b1, he⟩, h⟩ | ⟨he, rfl⟩
    · exact .waited hp hm he
    · cases h
      exact .committed (hc b0 b1 hp he)
    · exact .aborted hp hm he .write

end State

/-- Everything one engine step of a command can do. -/
theorem exec_cases {i : Instr} {s t : State} (h : exec i s = .next t) : Did i s t := by
  cases i with
  | read16 reg => exact State.memRead_did rfl (fun _ _ => .read16) h
  | write16 reg v => exact State.memWrite_did rfl (fun _ _ => .write16) h
  | readDeviceId => exact State.memRead_did rfl (fun _ _ => .readDeviceId) h
  | writeConfig0 =>
    exact State.memWrite_did rfl
      (fun _ _ => .writeConfig0) h
  | writeConfig1 =>
    exact State.memWrite_did rfl
      (fun _ _ => .writeConfig1) h
  | readChannelAdc a =>
    rcases execReadChannelAdc_cases h with
      ⟨rfl, hp, rfl⟩ | ⟨ha, hp, rfl⟩ | ⟨ha, hp, h⟩ | ⟨ha, hp, h⟩
    · exact .overflowed rfl hp
    · exact .issued hp (by simp [transactionsOf_readChannelAdc _ ha])
    · rcases State.awaitRead_cases h with ⟨he, rfl⟩ | ⟨b0, b1, he, h⟩ | ⟨he, rfl⟩
      · exact .waited hp (by simp [transactionsOf_readChannelAdc _ ha]) he
      · cases h
        simpa using Did.latched (s := s) rfl ha hp he
      · exact .aborted hp (by simp [transactionsOf_readChannelAdc _ ha]) he .read
    · rcases State.awaitRead_cases h with ⟨he, rfl⟩ | ⟨b0, b1, he, h⟩ | ⟨he, rfl⟩
      · exact .waited hp (by simp [transactionsOf_readChannelAdc _ ha]) he
      · cases h
        simpa using Did.committed (.readChannelAdc (s := s) ha hp he)
      · exact .aborted hp (by simp [transactionsOf_readChannelAdc _ ha]) he .read
  | readLuxFixed reg => exact State.memRead_did rfl (fun _ _ => .readLuxFixed) h
  | readLuxFloat reg => exact State.memRead_did rfl (fun _ _ => .readLuxFloat) h
  | decodePair f g => cases h; exact .committed .decodePair
  | decodeLux r => cases h; exact .committed .decodeLux

/-! ### The other direction: each of these outcomes is what the step answers -/

/-- Every one of these outcomes is what the engine's step of the command answers. -/
theorem exec_of_did {i : Instr} {s t : State} (h : Did i s t) : exec i s = .next t := by
  cases h with
  | issued hp hx =>
    cases i <;> simp only [transactionsOf, List.head?_cons, List.head?_nil, Option.some.injEq,
      reduceCtorEq, writeOf_eq] at hx <;> try subst hx
    case readChannelAdc a =>
      by_cases ha : a = 0xFF
      · simp [ha] at hx
      · simp only [if_neg ha, List.head?_cons, Option.some.injEq] at hx
        subst hx
        exact execReadChannelAdc_none ha hp
    all_goals first
      | exact State.memRead_none _ hp
      | exact State.memWrite_none _ hp
  | waited hp hx he =>
    cases i <;> simp only [transactionsOf, List.mem_singleton, List.not_mem_nil, writeOf_eq] at hx <;>
      try subst hx
    case readChannelAdc a =>
      by_cases ha : a = 0xFF
      · simp [ha] at hx
      · simp only [if_neg ha, List.mem_cons, List.not_mem_nil, or_false] at hx
        rcases hx with rfl | rfl
        · exact (execReadChannelAdc_first ha hp).trans (State.awaitRead_silent _ he)
        · exact (execReadChannelAdc_second ha hp).trans (State.awaitRead_silent _ he)
    all_goals first
      | exact (State.memRead_pending _ hp).trans (State.awaitRead_silent _ he)
      | exact (State.memWrite_pending _ hp).trans (State.awaitWrite_silent _ he)
  | aborted hp hx he hu =>
    cases i <;> simp only [transactionsOf, List.mem_singleton, List.not_mem_nil, writeOf_eq] at hx <;>
      try subst hx
    case readChannelAdc a =>
      by_cases ha : a = 0xFF
      · simp [ha] at hx
      · simp only [if_neg ha, List.mem_cons, List.not_mem_nil, or_false] at hx
        rcases hx with rfl | rfl <;> cases hu
        · exact (execReadChannelAdc_first ha hp).trans (State.awaitRead_failed _ he)
        · exact (execReadChannelAdc_second ha hp).trans (State.awaitRead_failed _ he)
    all_goals cases hu
    all_goals first
      | exact (State.memRead_pending _ hp).trans (State.awaitRead_failed _ he)
      | exact (State.memWrite_pending _ hp).trans (State.awaitWrite_failed _ he)
  | overflowed hi hp =>
    subst hi
    exact execReadChannelAdc_overflow hp
  | latched hi ha hp he =>
    subst hi
    refine (execReadChannelAdc_first ha hp).trans ((State.awaitRead_ok _ he).trans ?_)
    simp
  | committed hc =>
    cases hc with
    | read16 hp he => exact (State.memRead_pending _ hp).trans (State.awaitRead_ok _ he)
    | readDeviceId hp he => exact (State.memRead_pending _ hp).trans (State.awaitRead_ok _ he)
    | readLuxFixed hp he => exact (State.memRead_pending _ hp).trans (State.awaitRead_ok _ he)
    | readLuxFloat hp he => exact (State.memRead_pending _ hp).trans (State.awaitRead_ok _ he)
    | write16 hp he | writeConfig0 hp he | writeConfig1 hp he =>
      rw [writeOf_eq] at hp
      exact (State.memWrite_pending _ hp).trans (State.awaitWrite_ok _ he)
    | readChannelAdc ha hp he =>
      refine (execReadChannelAdc_second ha hp).trans ((State.awaitRead_ok _ he).trans ?_)
      simp
    | decodePair => rfl
    | decodeLux => rfl

/-- What an engine step of a command answers: exactly these outcomes. -/
theorem exec_eq_next_iff {i : Instr} {s t : State} : exec i s = .next t ↔ Did i s t :=
  ⟨exec_cases, exec_of_did⟩

end Sys2Proof.Machine
end

