-- ==== Sys2Proof/Laws/PerInstr.lean ====
section
/-! SUPPORT. Per command: its word has the `OP` of its row, leaves every field the row does not use zero, and
the fields give the command back (30_encoding.md R82 to R84). -/

namespace Sys2Proof.Laws.EncodedFields

/-- The fields of the command's word are those that R84 gives the row. -/
def Statement (i : Instr) : Prop :=
  i.wellFormed = true ∧
  (CmdWord.toCmd (encode i)).op = i.mnemonic.op ∧
  (CmdWord.toCmd (encode i)).reservedZero i.mnemonic = true ∧
  i.mnemonic.build (CmdWord.toCmd (encode i)) = i

theorem read16 (reg : Byte) : Statement (.read16 reg) := by
  refine ⟨rfl, ?_, ?_, ?_⟩ <;> rw [toCmd_encode] <;> rfl

theorem write16 (reg : Byte) (value : Half) : Statement (.write16 reg value) := by
  refine ⟨rfl, ?_, ?_, ?_⟩ <;> rw [toCmd_encode] <;> rfl

theorem readDeviceId : Statement .readDeviceId := by
  refine ⟨rfl, ?_, ?_, ?_⟩ <;> rw [toCmd_encode] <;> rfl

theorem writeConfig0 : Statement .writeConfig0 := by
  refine ⟨rfl, ?_, ?_, ?_⟩ <;> rw [toCmd_encode] <;> rfl

theorem writeConfig1 : Statement .writeConfig1 := by
  refine ⟨rfl, ?_, ?_, ?_⟩ <;> rw [toCmd_encode] <;> rfl

theorem readChannelAdc (reg : Byte) : Statement (.readChannelAdc reg) := by
  refine ⟨rfl, ?_, ?_, ?_⟩ <;> rw [toCmd_encode] <;> rfl

theorem readLuxFixed (reg : Byte) : Statement (.readLuxFixed reg) := by
  refine ⟨rfl, ?_, ?_, ?_⟩ <;> rw [toCmd_encode] <;> rfl

theorem readLuxFloat (reg : Byte) : Statement (.readLuxFloat reg) := by
  refine ⟨rfl, ?_, ?_, ?_⟩ <;> rw [toCmd_encode] <;> rfl

theorem decodePair (first second : Half) : Statement (.decodePair first second) := by
  refine ⟨rfl, ?_, ?_, ?_⟩ <;> rw [toCmd_encode] <;> rfl

theorem decodeLux (value : Half) : Statement (.decodeLux value) := by
  refine ⟨rfl, ?_, ?_, ?_⟩ <;> rw [toCmd_encode] <;> rfl

end Sys2Proof.Laws.EncodedFields
end

