-- ==== Sys2Proof/Tests/Slice0.lean ====
section
/-! SUPPORT. Tests: words written out from 30_encoding.md R84, ill-formed terms that the checks refuse, one step of
each command with the values of 95_test_vectors.md, and a witness for the hypotheses of each statement. -/

namespace Sys2Proof.Tests

open Sys2Proof Sys2Proof.Machine Sys2Proof.Claims

/-! ### States the tests start from -/

/-- The state of a step's answer. -/
def stateOf : Result → Option State
  | .next s => some s
  | .fault _ => none
  | .refused _ => none

/-- BUSY with the command `i`, the transaction `p` outstanding and the answers `a` to come. -/
def running (i : Instr) (p : Option Transaction) (a : List BusEvent) : State :=
  { State.reset with phase := .busy, cur := encode i, pend := p, answers := a }

/-- IDLE with the command words `ws` offered and the answers `a` to come. -/
def offered (ws : List CmdWord) (a : List BusEvent) : State :=
  { State.reset with host := offerAll ws, answers := a }

/-- The loopback instance, its register `0x09` holding `0xABCD` (95_test_vectors.md P4). -/
def loop (s : State) : State :=
  { s with params := { deviceModel := .loopback }, devreg := [(0x09, 0xABCD)] }

/-! ### Decoding: a word of each command, its fields written in binary: OP, REG, D0, D1 (R80, R84) -/

theorem test_decode_read16 :
    decode (0b00000001#8 ++ 0b00010001#8 ++ 0b0000000000000000#16 ++ 0b0000000000000000#16) =
      some (.read16 0x11) := by decide
theorem test_decode_write16 :
    decode (0b00000010#8 ++ 0b00001010#8 ++ 0b1100100000111000#16 ++ 0b0000000000000000#16) =
      some (.write16 0x0A 0xC838) := by decide
theorem test_decode_readDeviceId :
    decode (0b00000011#8 ++ 0b00000000#8 ++ 0b0000000000000000#16 ++ 0b0000000000000000#16) =
      some .readDeviceId := by decide
theorem test_decode_writeConfig0 :
    decode (0b00000100#8 ++ 0b00000000#8 ++ 0b0000000000000000#16 ++ 0b0000000000000000#16) =
      some .writeConfig0 := by decide
theorem test_decode_writeConfig1 :
    decode (0b00000101#8 ++ 0b00000000#8 ++ 0b0000000000000000#16 ++ 0b0000000000000000#16) =
      some .writeConfig1 := by decide
theorem test_decode_readChannelAdc :
    decode (0b00000110#8 ++ 0b00000100#8 ++ 0b0000000000000000#16 ++ 0b0000000000000000#16) =
      some (.readChannelAdc 0x04) := by decide
theorem test_decode_readLuxFixed :
    decode (0b00000111#8 ++ 0b00100000#8 ++ 0b0000000000000000#16 ++ 0b0000000000000000#16) =
      some (.readLuxFixed 0x20) := by decide
theorem test_decode_readLuxFloat :
    decode (0b00001000#8 ++ 0b00100000#8 ++ 0b0000000000000000#16 ++ 0b0000000000000000#16) =
      some (.readLuxFloat 0x20) := by decide
theorem test_decode_decodePair :
    decode (0b00001001#8 ++ 0b00000000#8 ++ 0b1100000100100011#16 ++ 0b0100010100000000#16) =
      some (.decodePair 0xC123 0x4500) := by decide
theorem test_decode_decodeLux :
    decode (0b00001010#8 ++ 0b00000000#8 ++ 0b0010000100100011#16 ++ 0b0000000000000000#16) =
      some (.decodeLux 0x2123) := by decide

/-- The match bits of spec/opcode_table.json, read through the table's numbering. -/
theorem test_decodeTableWord :
    decodeTableWord 48 0x010000000000 = some (.read16 0) ∧
    decodeTableWord 48 0x0A0000000000 = some (.decodeLux 0) ∧
    decodeTableWord 48 0x02FF12340000 = some (.write16 0xFF 0x1234) ∧
    decodeTableWord 48 0x0B0000000000 = none ∧ decodeTableWord 56 0x010000000000 = none := by decide

/-! ### Well-formedness: an ill-formed term for each check -/

/-- `OP` undefined, and each reserved field of each command with a nonzero bit (R83, R84, R86). -/
theorem test_illformed_commands :
    ([⟨0x00, 0, 0, 0⟩, ⟨0x0B, 0, 0, 0⟩, ⟨0xFF, 0xFF, 0xFFFF, 0xFFFF⟩,
      ⟨0x01, 0, 1, 0⟩, ⟨0x01, 0, 0, 1⟩, ⟨0x02, 0, 0, 1⟩,
      ⟨0x03, 1, 0, 0⟩, ⟨0x03, 0, 1, 0⟩, ⟨0x03, 0, 0, 1⟩,
      ⟨0x04, 1, 0, 0⟩, ⟨0x04, 0, 1, 0⟩, ⟨0x04, 0, 0, 1⟩,
      ⟨0x05, 1, 0, 0⟩, ⟨0x05, 0, 1, 0⟩, ⟨0x05, 0, 0, 1⟩,
      ⟨0x06, 0, 1, 0⟩, ⟨0x06, 0, 0, 1⟩, ⟨0x07, 0, 1, 0⟩, ⟨0x07, 0, 0, 1⟩,
      ⟨0x08, 0, 1, 0⟩, ⟨0x08, 0, 0, 1⟩, ⟨0x09, 1, 0, 0⟩,
      ⟨0x0A, 1, 0, 0⟩, ⟨0x0A, 0, 0, 1⟩] : List Cmd).all
      (fun c => !c.wellFormed && (decode c.toWord).isNone) = true := by decide

/-- A numeral too wide for its field, and a channel above 3 (R88, R89). -/
theorem test_illformed_lines :
    ([.read16 (.num 256), .write16 (.num 256) 0, .write16 (.num 0) 65536,
      .readChannelAdc (.num 256), .readLuxFixed (.num 256), .readLuxFloat (.num 256),
      .decodePair 65536 0, .decodePair 0 65536, .decodeLux 65536,
      .readChannel 4, .word (2 ^ 48)] : List AsmLine).all
      (fun l => !l.wellFormed && (assemble l).isNone) = true := by decide

theorem test_wellformed_commands :
    (⟨0x06, 0xFF, 0, 0⟩ : Cmd).wellFormed = true ∧
    (AsmLine.write16 (.name .config0) 0xC838).wellFormed = true ∧
    (Instr.readChannelAdc 0xFF).wellFormed = true := by decide

/-! ### Assembly (R88, R89; the words of 95_test_vectors.md P1 to P4) -/

theorem test_assemble_text :
    assembleText "READ_CHANNEL 1   ; second channel" = some [0x060200000000] ∧
    assembleText "WRITE16 0x09, 0xABCD" = some [0x0209ABCD0000] ∧
    assembleText "READ16 DEVICEID" = some [0x011100000000] ∧
    assembleText ".word 0x0B0000000000" = some [0x0B0000000000] ∧
    assembleText "INIT_DEFAULTS" = some [0x040000000000, 0x050000000000] := by decide

theorem test_assembler_refuses :
    assembleText "READ16 NOSUCH" = none ∧ assembleText "WRITE16 0x100, 0" = none ∧
    assembleText "READ_CHANNEL 4" = none := by decide

/-! ### One step of each command (95_test_vectors.md) -/

/-- Vector 2.3: bytes `08 21` at offset `0x11`. -/
theorem test_read16 :
    (stateOf (exec (.read16 0x11) (running (.read16 0x11) (some (.read 0x44 0x11)) [.ok 0x08 0x21]))).map
      (fun t => (t.out.raw0, t.statusWord)) = some (0x0821, 0x0101) := by decide

/-- Vector 2.3: a short read. -/
theorem test_read16_short :
    (stateOf (exec (.read16 0x11) (running (.read16 0x11) (some (.read 0x44 0x11))
      [.short (some 0x08)]))).map
      (fun t => (t.out.raw0, t.statusWord)) = some (0x0000, 0x0107) := by decide

/-- Vector 2.3: `WRITE16 0x19, 0x00FF` sends `00 FF`. -/
theorem test_write16_issues :
    (stateOf (exec (.write16 0x19 0x00FF) (running (.write16 0x19 0x00FF) none []))).map
      (fun t => (t.pend, t.statusWord)) = some (some (.write 0x44 0x19 0x00 0xFF), 0x0040) := by decide

/-- Program P4: the loopback device holds what was written; `STATUS` is `0x0201`. -/
theorem test_write16_loopback :
    (stateOf (exec (.write16 0x19 0x1234) (loop (running (.write16 0x19 0x1234)
      (some (.write 0x44 0x19 0x12 0x34)) [.ok 0 0])))).map
      (fun t => (t.devreg, t.statusWord)) = some ([(0x09, 0xABCD), (0x19, 0x1234)], 0x0201) := by decide

/-- V4: an unexpected ID is no error. -/
theorem test_readDeviceId :
    (stateOf (exec .readDeviceId (running .readDeviceId (some (.read 0x44 0x11)) [.ok 0x12 0x34]))).map
      (fun t => (t.out.raw0, t.statusWord)) = some (0x1234, 0x0301) := by decide

/-- V3: `BusWrite(0x44, 0x0A, [0xC8, 0x38])`. -/
theorem test_writeConfig0 :
    (stateOf (exec .writeConfig0 (running .writeConfig0 none []))).map (fun t => t.pend) =
      some (some (.write 0x44 0x0A 0xC8 0x38)) := by decide

/-- V3: `BusWrite(0x44, 0x0B, [0x40, 0x11])`. -/
theorem test_writeConfig1 :
    (stateOf (exec .writeConfig1 (running .writeConfig1 none []))).map (fun t => t.pend) =
      some (some (.write 0x44 0x0B 0x40 0x11)) := by decide

/-- Vector 2.5: `READ_CHANNEL_ADC 0xFE` reads `0xFE` and then `0xFF`. -/
theorem test_readChannelAdc_second_read :
    (stateOf (exec (.readChannelAdc 0xFE) (running (.readChannelAdc 0xFE) (some (.read 0x44 0xFE))
      [.ok 0x00 0x01]))).map (fun t => (t.latch0, t.pend, t.out.raw0, t.statusWord)) =
      some (0x0001, some (.read 0x44 0xFF), 0x0000, 0x0040) := by decide

/-- Vector 2.5: the pair `C8 38`, `40 11` at offset `0x0A`. -/
theorem test_readChannelAdc :
    (stateOf (exec (.readChannelAdc 0x0A) { running (.readChannelAdc 0x0A) (some (.read 0x44 0x0B))
      [.ok 0x40 0x11] with latch0 := 0xC838 })).map
      (fun t => (t.out.exp, t.out.mant, t.out.adc, t.statusWord)) =
      some (12, 0x83840, 0x0083840000, 0x0601) := by decide

/-- R150: `R = 0x2123`. -/
theorem test_readLuxFixed :
    (stateOf (exec (.readLuxFixed 0x20) (running (.readLuxFixed 0x20) (some (.read 0x44 0x20))
      [.ok 0x21 0x23]))).map
      (fun t => (t.out.exp, t.out.mant, t.out.luxfix, t.out.luxflt)) =
      some (2, 0x123, 1164, 0) := by decide

/-- Program P4: loopback answers `AB CD`, whatever the draw is. -/
theorem test_readLuxFloat :
    (stateOf (exec (.readLuxFloat 0x09) (loop (running (.readLuxFloat 0x09) (some (.read 0x44 0x09))
      [.ok 0x00 0x00])))).map
      (fun t => (t.out.raw0, t.out.luxfix, t.out.luxflt, t.statusWord)) =
      some (0xABCD, 3093504, 0x40DE35C28F5C28F6, 0x0801) := by decide

/-- Vector 2.4, row `0x3ABC`, `0xDE5A`. -/
theorem test_decodePair :
    (stateOf (exec (.decodePair 0x3ABC 0xDE5A) (running (.decodePair 0x3ABC 0xDE5A) none []))).map
      (fun t => (t.out, t.statusWord)) =
      some ({ raw0 := 0x3ABC, raw1 := 0xDE5A, exp := 3, rmsb := 0xABC, rlsb := 0xDE, cnt := 0x5,
              crc := 0xE5A, mant := 0xABCDE, adc := 0x000055E6F0 }, 0x0901) := by decide

/-- Vector 2.4, the greatest ADC code and the first that 32 bits lose. -/
theorem test_decodePair_wide :
    (decodePair 0xFFFF 0xFFFF).adcCode = 34359705600 ∧
    (decodePair 0xD800 0x0001).adcCode = 4294967296 := by decide

/-- Vector 2.6. -/
theorem test_decodeLux :
    (stateOf (exec (.decodeLux 0x0023) (running (.decodeLux 0x0023) none []))).map
      (fun t => (t.out.luxfix, t.out.luxflt, t.statusWord)) =
      some (35, 0x3FD6666666666667, 0x0A01) := by decide

/-- Vector 2.6, the column LUXFLT. -/
theorem test_luxFloat_vectors :
    [1164, 0, 134184960, 1, 100, 32768, 4095, 400, 84800, 41].map luxFloat =
      [0x402747AE147AE148, 0, 0x413479999999999A, 0x3F847AE147AE147B, 0x3FF0000000000000,
       0x40747AE147AE147B, 0x404479999999999A, 0x4010000000000000, 0x408A800000000000,
       0x3FDA3D70A3D70A3E] := by decide

/-- Vector 2.2: `STATUS` after an illegal word with `OP = 0x0B`, and after an AddrOverflow. -/
theorem test_status_of_exceptions :
    (stateOf (step (State.reset.withFetchWord 48 0x0B0000000000))).map State.statusWord = some 0x0B0B ∧
    (stateOf (step (State.reset.withFetchWord 48 0x06FF00000000))).map State.statusWord = some 0x060F := by
  decide

/-- Vector 2.2: BUSY after READ16 is accepted, following a READ16 success. -/
theorem test_status_busy :
    (stateOf (step { offered [0x011100000000] [] with
      status := { valid := true, lastop := 0x01 } })).map State.statusWord = some 0x0141 := by decide

/-- R231: reset inside a command. -/
theorem test_reset_abandons :
    (stateOf (step { running (.read16 0x11) (some (.read 0x44 0x11)) [.silent] with
      host := [.reset], out := { raw0 := 0x1234 } })).map (fun t => (t.phase, t.pend, t.out.raw0)) =
      some (.idle, none, 0x0000) := by decide

/-- R9, D30: instances out of range. -/
theorem test_illegal_instances :
    paramRefusal { adcW := 34 } = some .adcWidthBelow35 ∧
    paramRefusal { deviceAddr := 0x80 } = some .deviceAddrAbove7F ∧
    paramRefusal { deviceAddr := 0x7F, adcW := 35 } = none := by decide

/-! ### Witnesses: for each statement with hypotheses, a state and operands that meet all of them -/

theorem test_meets_DecodeOfEncodeIsTheCommand : (Instr.write16 0xFF 0xFFFF).wellFormed = true := by
  decide

theorem test_meets_LegalWordIsTheEncodingOfItsCommand :
    decode 0x0900FFFFFFFF = some (.decodePair 0xFFFF 0xFFFF) := by decide

theorem test_meets_DecoderAgreesWithMatchAndMask :
    Mnemonic.selects .write16 0x02FFFFFF0000 ∧ Mnemonic.selects .decodeLux 0x0A00FFFF0000 := by decide

/-- `OP` 0, and both ends of the other undefined range. -/
theorem test_meets_IllegalWordsAreTheUndefinedAndTheReserved :
    (CmdWord.toCmd 0x00FFFFFFFFFF).op = 0x00 ∧ 0x0B ≤ (CmdWord.toCmd 0x0B0000000000).op ∧
    0x0B ≤ (CmdWord.toCmd 0xFF0000000000).op := by decide

/-- One state for each action of the host, and one word for `withFetchWord`. -/
theorem test_meets_StepRunsTheDecodedCommand :
    (∀ hs ∈ ([[], [.pause], [.offer 0, .reset], [.awaitIdle]] : List (List HostAction)),
      let s := { running (.read16 0xFF) none [] with host := hs }
      s.ParamsLegal ∧ s.phase = .busy ∧ decode s.cur = some (.read16 0xFF)) ∧
    State.reset.ParamsLegal ∧ decodeTableWord 48 0x06FF00000000 = some (.readChannelAdc 0xFF) := by
  decide

theorem test_meets_AcceptTakesTheOfferedWordOnlyWhileIdle :
    (offered [0x0B] []).ParamsLegal ∧ (offered [0x0B] []).phase = .idle ∧
    (offered [0x0B] []).host = .offer 0x0B :: [] ∧
    ∃ t, step { running (.read16 0) none [] with host := [.offer 0x0B] } = .next t :=
  ⟨by decide, rfl, rfl, _, rfl⟩

theorem test_meets_IllegalCommandWritesOnlyStatus :
    let s := { State.reset with phase := .busy, cur := 0x030000000001, host := [.pause] }
    let u := { s with host := [] }
    s.ParamsLegal ∧ s.hostTurn = .engine u ∧ u.phase = .busy ∧
      (CmdWord.toCmd u.cur).wellFormed = false := by decide

/-- Reset with a write outstanding at offset `0x0A`: offset `0x09` is not its target. -/
theorem test_meets_ResetRestoresTheResetValues :
    let s := { loop (running .writeConfig0 (some (.write 0x44 0x0A 0xC8 0x38)) []) with
      host := [.reset] }
    s.ParamsLegal ∧ s.host = .reset :: [] ∧
      ∀ d r b0 b1, s.pend = some (.write d r b0 b1) → r.toNat ≠ 0x09 := by
  refine ⟨by decide, rfl, fun d r b0 b1 h => ?_⟩
  cases h
  decide

/-- Each bound from both sides. -/
theorem test_meets_IllegalInstanceIsRefused :
    ({ State.reset with params := { adcW := 34 } } : State).params.adcW < 35 ∧
    35 ≤ ({ State.reset with params := { adcW := 35, deviceAddr := 0x80 } } : State).params.adcW ∧
    0x7F < ({ State.reset with params := { adcW := 35, deviceAddr := 0x80 } } : State).params.deviceAddr ∧
    ({ State.reset with params := { adcW := 35, deviceAddr := 0x7F } } : State).ParamsLegal := by
  decide

theorem test_meets_IdleEngineWaits :
    State.reset.ParamsLegal ∧ State.reset.phase = .idle ∧ State.reset.host = [] := by decide

theorem test_meets_ReadingCommandsIssueTheirRead :
    (running (.read16 0) none []).pend = none ∧ (0xFE : Byte) ≠ 0xFF := by decide

theorem test_meets_WritingCommandsIssueTheirWriteHighByteFirst :
    (running (.write16 0 0xFF00) none []).pend = none := by decide

/-- Unconstrained; Loopback at a written offset; Loopback at an UNWRITTEN one. -/
theorem test_meets_ReadValueFollowsTheDeviceModel :
    State.reset.params.deviceModel = .unconstrained ∧
    (loop State.reset).params.deviceModel = .loopback ∧
    (loop State.reset).devreg.read (0x09 : Byte).toNat = some 0xABCD ∧
    (loop State.reset).devreg.read (0x0A : Byte).toNat = none := by decide

theorem test_meets_Read16Completes :
    let s := running (.read16 0xFF) (some (.read 0x44 0xFF)) [.ok 0x00 0xFF]
    decode s.cur = some (.read16 0xFF) ∧ s.pend = some (.read s.dev 0xFF) ∧
      s.nextEvent = .ok 0x00 0xFF := by decide

theorem test_meets_ReadDeviceIdCompletesWithAnyValue :
    let s := running .readDeviceId (some (.read 0x44 0x11)) [.ok 0x12 0x34]
    decode s.cur = some .readDeviceId ∧ s.pend = some (.read s.dev 0x11) ∧
      s.nextEvent = .ok 0x12 0x34 := by decide

/-- Under both device models. -/
theorem test_meets_Write16Completes :
    let s := running (.write16 0x09 0xFFFF) (some (.write 0x44 0x09 0xFF 0xFF)) [.ok 0 0]
    (∀ u ∈ [s, loop s], decode u.cur = some (.write16 0x09 0xFFFF) ∧
      u.pend = some (writeOf u.dev 0x09 0xFFFF) ∧ u.nextEvent = .ok 0 0) ∧
    s.params.deviceModel = .unconstrained ∧ (loop s).params.deviceModel = .loopback ∧
    (0x0A : Nat) ≠ (0x09 : Byte).toNat := by decide

theorem test_meets_WriteConfigCommandsComplete :
    let s := running .writeConfig0 (some (.write 0x44 0x0A 0xC8 0x38)) [.ok 0 0]
    let u := running .writeConfig1 (some (.write 0x44 0x0B 0x40 0x11)) [.ok 0 0]
    decode s.cur = some .writeConfig0 ∧ s.pend = some (.write s.dev 0x0A 0xC8 0x38) ∧
      s.nextEvent = .ok 0 0 ∧ (loop s).params.deviceModel = .loopback ∧
      decode (loop s).cur = some .writeConfig0 ∧ s.params.deviceModel = .unconstrained ∧
    decode u.cur = some .writeConfig1 ∧ u.pend = some (.write u.dev 0x0B 0x40 0x11) ∧
      u.nextEvent = .ok 0 0 ∧ (loop u).params.deviceModel = .loopback ∧
      decode (loop u).cur = some .writeConfig1 ∧ u.params.deviceModel = .unconstrained := by decide

theorem test_meets_ReadChannelAdcIssuesItsSecondRead :
    let s := running (.readChannelAdc 0xFE) (some (.read 0x44 0xFE)) [.ok 0xC1 0x23]
    (0xFE : Byte) ≠ 0xFF ∧ s.pend = some (.read s.dev 0xFE) ∧ s.nextEvent = .ok 0xC1 0x23 := by decide

theorem test_meets_ReadChannelAdcCompletes :
    let s := running (.readChannelAdc 0xFE) (some (.read 0x44 0xFF)) [.ok 0x45 0x00]
    decode s.cur = some (.readChannelAdc 0xFE) ∧ (0xFE : Byte) ≠ 0xFF ∧
      s.pend = some (.read s.dev (0xFE + 1)) ∧ s.nextEvent = .ok 0x45 0x00 := by decide

theorem test_meets_ReadLuxFixedCompletes :
    let s := running (.readLuxFixed 0x20) (some (.read 0x44 0x20)) [.ok 0xFF 0xFF]
    decode s.cur = some (.readLuxFixed 0x20) ∧ s.pend = some (.read s.dev 0x20) ∧
      s.nextEvent = .ok 0xFF 0xFF := by decide

theorem test_meets_ReadLuxFloatCompletes :
    let s := running (.readLuxFloat 0x20) (some (.read 0x44 0x20)) [.ok 0xFF 0xFF]
    decode s.cur = some (.readLuxFloat 0x20) ∧ s.pend = some (.read s.dev 0x20) ∧
      s.nextEvent = .ok 0xFF 0xFF := by decide

theorem test_meets_DecodePairCompletes :
    decode (running (.decodePair 0xFFFF 0xFFFF) none []).cur = some (.decodePair 0xFFFF 0xFFFF) := by
  decide

theorem test_meets_DecodeLuxCompletes :
    decode (running (.decodeLux 0x1000) none []).cur = some (.decodeLux 0x1000) := by decide

theorem test_meets_AddrOverflowWritesOnlyStatus :
    let s := running (.readChannelAdc 0xFF) none []
    s.pend = none ∧ decode s.cur = some (.readChannelAdc 0xFF) := by decide

/-- A failed first read of a pair, a short second one, and a failed write that spares offset `0x09`. -/
theorem test_meets_BusErrorWritesOnlyStatus :
    (let s := running (.readChannelAdc 4) (some (.read 0x44 4)) [.fail]
     decode s.cur = some (.readChannelAdc 4) ∧ .read 0x44 4 ∈ transactionsOf s.dev (.readChannelAdc 4) ∧
      Fails s) ∧
    (let s := running (.readChannelAdc 4) (some (.read 0x44 5)) [.short none]
     decode s.cur = some (.readChannelAdc 4) ∧ .read 0x44 5 ∈ transactionsOf s.dev (.readChannelAdc 4) ∧
      Fails s) ∧
    (let s := running .writeConfig0 (some (.write 0x44 0x0A 0xC8 0x38)) [.fail]
     decode s.cur = some .writeConfig0 ∧
      .write 0x44 0x0A 0xC8 0x38 ∈ transactionsOf s.dev .writeConfig0 ∧ Fails s) ∧
    ∀ d r b0 b1, Transaction.write 0x44 0x0A 0xC8 0x38 = .write d r b0 b1 → r.toNat ≠ 0x09 := by
  refine ⟨⟨by decide, by decide, .inr rfl⟩, ⟨by decide, by decide, .inl ⟨none, rfl⟩⟩,
    ⟨by decide, by decide, .inr rfl⟩, fun d r b0 b1 h => ?_⟩
  cases h
  decide

theorem test_meets_EngineWaitsForTheBus :
    let s := running (.read16 7) (some (.read 0x44 7)) [.silent]
    s.pend = some (.read 0x44 7) ∧ .read 0x44 7 ∈ transactionsOf s.dev (.read16 7) ∧
      s.nextEvent = .silent := by decide

theorem test_meets_HungTransactionKeepsTheEngineBusy :
    let s := { running (.read16 7) (some (.read 0x44 7)) [.silent, .silent, .fail] with
      host := [.offer 0] }
    s.ParamsLegal ∧ s.phase = .busy ∧ decode s.cur = some (.read16 7) ∧
      s.pend = some (.read 0x44 7) ∧ .read 0x44 7 ∈ transactionsOf s.dev (.read16 7) ∧
      s.answers = silence 2 ++ [.fail] ∧ s.host = .offer 0 :: [] := by decide

theorem test_meets_SecondReadOnlyAfterTheFirstReturned :
    let s := running (.readChannelAdc 4) (some (.read 0x44 4)) [.ok 1 2]
    ∃ t, exec (.readChannelAdc 4) s = .next t ∧ t.pend = some (.read s.dev (4 + 1)) ∧
      s.pend ≠ some (.read s.dev (4 + 1)) := ⟨_, rfl, rfl, by decide⟩

theorem test_meets_CommandsIssueOnlyTheirTransactions :
    ∃ t, exec .writeConfig1 (running .writeConfig1 none []) = .next t := ⟨_, rfl⟩

/-- The least legal `ADC_W`, and a wider one than the spec's. -/
theorem test_meets_AdcCodeIsExactAndBelowTwoToThe35 :
    ∀ w ∈ [35, 64],
      let m := { State.reset with params := { adcW := w }, out := commitPair 0xFFFF 0xFFFF {} }
      m.ParamsLegal ∧ m.out = commitPair 0xFFFF 0xFFFF {} := by decide

theorem test_meets_ThirtyTwoBitsLoseDataFromExponentThirteen :
    2 ^ 32 ≤ (decodePair 0xD800 0x0000).adcCode ∧ (decodePair 0xD800 0x0000).exponent.toNat = 13 ∧
    0x80000 ≤ (decodePair 0xD800 0x0000).mantissa.toNat := by decide

theorem test_meets_PairDecoderLaws :
    (decodePair 0x0001 0x0000).exponent = 0 ∧
    (0x45FF : Half).extractLsb' 8 8 = (0x4500 : Half).extractLsb' 8 8 := by decide

theorem test_meets_LuxFloatCommutesWithTheExponent :
    0 < 4095 ∧ 4095 < 2 ^ 12 ∧ 15 < 2 ^ 4 := by decide

theorem test_meets_LuxFloatIsCorrectlyRounded : 134184960 < 2 ^ 27 := by decide

theorem test_meets_LuxFloatIsFiniteAndNotNegative : 0 < 2 ^ 27 ∧ 134184960 < 2 ^ 27 := by decide

theorem test_meets_LuxRegistersAgree :
    (∃ t, exec (.decodeLux 0x0023) (running (.decodeLux 0x0023) none []) = .next t ∧
      (running (.decodeLux 0x0023) none []).phase = .busy ∧ t.phase = .idle ∧ t.status.err = false) ∧
    ∃ t, exec (.readLuxFloat 1) (running (.readLuxFloat 1) (some (.read 0x44 1)) [.ok 0 0x23]) =
        .next t ∧ t.phase = .idle ∧ t.status.err = false :=
  ⟨⟨_, rfl, rfl, rfl, rfl⟩, _, rfl, rfl, rfl⟩

/-- Each of the four commands, and a step that keeps the engine BUSY. -/
theorem test_meets_SingleReadCommandsFrame :
    (∃ t, exec (.read16 1) (running (.read16 1) (some (.read 0x44 1)) [.ok 0 0x23]) = .next t) ∧
    (∃ t, exec .readDeviceId (running .readDeviceId none []) = .next t ∧
      t.phase = .busy) ∧
    (∃ t, exec (.readLuxFixed 1) (running (.readLuxFixed 1) (some (.read 0x44 1)) [.fail]) = .next t) ∧
    ∃ t, exec (.readLuxFloat 1) (running (.readLuxFloat 1) (some (.read 0x44 1)) [.ok 0 0x23]) =
      .next t := ⟨⟨_, rfl⟩, ⟨_, rfl, rfl⟩, ⟨_, rfl⟩, _, rfl⟩

theorem test_meets_WritingCommandsFrame :
    (∃ t, exec (.write16 9 1) (loop (running (.write16 9 1) (some (.write 0x44 9 0 1)) [.ok 0 0])) =
      .next t) ∧
    (∃ t, exec .writeConfig0 (running .writeConfig0 none []) = .next t ∧
      t.phase = .busy) ∧
    ∃ t, exec .writeConfig1 (loop (running .writeConfig1 (some (.write 0x44 0x0B 0x40 0x11)) [.fail])) =
      .next t := ⟨⟨_, rfl⟩, ⟨_, rfl, rfl⟩, _, rfl⟩

theorem test_meets_ReadChannelAdcFrame :
    ∃ t, exec (.readChannelAdc 4) (running (.readChannelAdc 4) (some (.read 0x44 4)) [.ok 1 2]) =
      .next t ∧ t.phase = .busy ∧ t.latch0 ≠ 0 := ⟨_, rfl, rfl, by decide⟩

theorem test_meets_DecodeOnlyCommandsFrame :
    (∃ t, exec (.decodePair 1 2) (running (.decodePair 1 2) none []) = .next t) ∧
    ∃ t, exec (.decodeLux 1) (running (.decodeLux 1) none []) = .next t := ⟨⟨_, rfl⟩, _, rfl⟩

/-- A completing READ16, whose step meets the hypotheses of the two statements about completions. -/
theorem test_meets_OutputRegistersChangeOnlyAtCompletion :
    let s := running (.read16 1) (some (.read 0x44 1)) [.ok 0 0x23]
    ∃ t, step s = .next t ∧ NoReset s ∧ (t.out ≠ s.out ∨ t.status ≠ s.status) :=
  ⟨_, rfl, (fun _ h => nomatch h), .inl (by decide)⟩

theorem test_meets_CompletionWritesStatus :
    let s := running (.read16 1) (some (.read 0x44 1)) [.ok 0 0x23]
    ∃ t, step s = .next t ∧ NoReset s ∧ s.phase = .busy ∧ t.phase = .idle :=
  ⟨_, rfl, (fun _ h => nomatch h), rfl, rfl⟩

/-- A step without a reset and a step with one. -/
theorem test_meets_DeviceAddressChangesOnlyAtReset :
    (∃ t, step State.reset = .next t ∧ NoReset State.reset) ∧
    ∃ t, step { State.reset with host := [.reset], dev := 0 } = .next t ∧
      ¬ NoReset { State.reset with host := [.reset], dev := 0 } :=
  ⟨⟨_, rfl, (fun _ h => nomatch h)⟩, _, rfl, (fun h => h [] rfl)⟩

/-- A reset machine to which a command is offered, for the two statements that assume the invariant. -/
theorem test_meets_EveryStepKeepsTheInvariant :
    (offered [0x0A0000230000] []).Inv ∧ ∃ t, step (offered [0x0A0000230000] []) = .next t :=
  ⟨⟨by decide, by decide, by decide, (fun _ => rfl), by decide, by decide, (fun _ => rfl),
    ⟨0, by decide⟩, ⟨0, by decide⟩, 0, by decide⟩, _, rfl⟩

/-- A completing step, so that the clause on `STATUS` has its hypotheses too. -/
theorem test_meets_CommandsDoNotReadTheOutputRegisters :
    ∃ t, exec (.read16 1) (running (.read16 1) (some (.read 0x44 1)) [.ok 0 0x23]) = .next t ∧
      (running (.read16 1) (some (.read 0x44 1)) [.ok 0 0x23]).phase = .busy ∧ t.phase = .idle :=
  ⟨_, rfl, rfl, rfl⟩

theorem test_meets_ReadChannelAdcFromOfferToCompletion :
    let s := offered [encode (.readChannelAdc 0)]
      [.silent, .ok 0xC1 0x23, .ok 0x45 0x00]
    s.ParamsLegal ∧ s.params.deviceModel = .unconstrained ∧ s.phase = .idle ∧ s.pend = none ∧
      (0 : Byte) ≠ 0xFF ∧ s.host = [.offer (encode (.readChannelAdc 0))] ∧
      s.answers = silence 1 ++ [.ok 0xC1 0x23] ++ silence 0 ++ [.ok 0x45 0x00] ++ [] := by decide

theorem test_meets_LoopbackRoundTrip :
    let s := loop (offered [encode (.write16 0xFF 0x00FF), encode (.read16 0xFF)]
      [.ok 0 0, .silent, .ok 1 1])
    s.ParamsLegal ∧ s.params.deviceModel = .loopback ∧ s.phase = .idle ∧ s.pend = none ∧
      s.host = [.offer (encode (.write16 0xFF 0x00FF)), .offer (encode (.read16 0xFF))] ∧
      s.answers = silence 0 ++ [.ok 0 0] ++ silence 1 ++ [.ok 1 1] ++ [] := by decide

theorem test_meets_EveryCommandCompletesWhenTheBusReturns :
    let s := offered [0x060400000000] [.ok 0xD8 0x00, .fail]
    s.ParamsLegal ∧ s.phase = .idle ∧ s.pend = none ∧ s.host = [.offer 0x060400000000] ∧
      s.answers = .ok 0xD8 0x00 :: .fail :: [] ∧ BusEvent.ok 0xD8 0x00 ≠ .silent ∧
      BusEvent.fail ≠ .silent := by decide

/-- A decode-only command, an illegal word, and READ_CHANNEL_ADC at `0xFF`. -/
theorem test_meets_CommandsWithoutTransactionCompleteInTwoSteps :
    let s := offered [0x0900C1234500] []
    s.ParamsLegal ∧ s.phase = .idle ∧ s.pend = none ∧ s.host = [.offer 0x0900C1234500] ∧
      decode 0x0900C1234500 = some (.decodePair 0xC123 0x4500) ∧
      transactionsOf s.dev (.decodePair 0xC123 0x4500) = [] ∧
    (offered [0x0B0000000000] []).host = [.offer 0x0B0000000000] ∧ decode 0x0B0000000000 = none ∧
    (offered [0x06FF00000000] []).host = [.offer 0x06FF00000000] ∧
      decode 0x06FF00000000 = some (.readChannelAdc 0xFF) ∧
      transactionsOf 0x44 (.readChannelAdc 0xFF) = [] := by decide

theorem test_meets_PseudoCommandsExpand : 3 < 4 ∧ 4 ≤ 4 := by decide

/-- A line of commands; a numeral; a name of R60; a name that is none; operands as text. -/
theorem test_meets_AssemblerAcceptsExactlyWellFormedLines :
    commandsOf (.write16 (.name .config0) 0xC838) = some [.write16 0x0A 0xC838] ∧
    numeral "0xFF".toList = some 255 ∧ ("DEVICEID", 0x11) ∈ namedOffsets ∧
    numeral "NOSUCH".toList = none ∧ (∀ p ∈ namedOffsets, "NOSUCH" ≠ p.1) ∧
    (∀ c ∈ "CONFIG0".toList, c ≠ ' ' ∧ c ≠ '\t' ∧ c ≠ ',' ∧ c ≠ ';') ∧
    ∀ c ∈ "0xC838".toList, c ≠ ' ' ∧ c ≠ '\t' ∧ c ≠ ',' ∧ c ≠ ';' := by
  refine ⟨by decide, by decide, by decide, by decide, by decide, by simp, by simp⟩

end Sys2Proof.Tests
end

section
/-! PROOFS. Where a refusal can come from (30_encoding.md R94 c): the parameters, and nothing else. -/

namespace Sys2Proof.Machine

/-- The result is no refusal, of whatever reason. -/
def NeverRefuses (x : Result) : Prop := ∀ r : Refusal, x ≠ .refused r

@[simp] theorem neverRefuses_next (s : State) : NeverRefuses (.next s) := fun _ h => nomatch h

@[simp] theorem neverRefuses_fault (e : Fault) : NeverRefuses (.fault e) := fun _ h => nomatch h

namespace State

variable {s : State} {reg : Byte} {v : Half}

theorem awaitRead_neverRefuses {k : Half → State → Result} (hk : ∀ x u, NeverRefuses (k x u)) :
    NeverRefuses (s.awaitRead reg k) := by
  cases he : s.nextEvent with
  | silent => simp [awaitRead_silent k he]
  | ok b0 b1 => simpa [awaitRead_ok k he] using hk _ _
  | short x => simp [awaitRead_failed k (.inl ⟨x, he⟩)]
  | fail => simp [awaitRead_failed k (.inr he)]

theorem awaitWrite_neverRefuses {k : State → Result} (hk : ∀ u, NeverRefuses (k u)) :
    NeverRefuses (s.awaitWrite reg v k) := by
  cases he : s.nextEvent with
  | silent => simp [awaitWrite_silent k he]
  | ok b0 b1 => simpa [awaitWrite_ok k he] using hk _
  | short x => simp [awaitWrite_failed k (.inl ⟨x, he⟩)]
  | fail => simp [awaitWrite_failed k (.inr he)]

theorem memRead_neverRefuses {k : Half → State → Result} (hk : ∀ x u, NeverRefuses (k x u)) :
    NeverRefuses (s.memRead reg k) := by
  unfold memRead
  split
  · exact neverRefuses_next _
  · split
    · exact awaitRead_neverRefuses hk
    · exact neverRefuses_fault _

theorem memWrite_neverRefuses {k : State → Result} (hk : ∀ u, NeverRefuses (k u)) :
    NeverRefuses (s.memWrite reg v k) := by
  unfold memWrite
  split
  · exact neverRefuses_next _
  · split
    · exact awaitWrite_neverRefuses hk
    · exact neverRefuses_fault _

end State

theorem execReadChannelAdc_neverRefuses (a : Byte) (s : State) :
    NeverRefuses (execReadChannelAdc a s) := by
  unfold execReadChannelAdc
  split
  · exact neverRefuses_next _
  · exact neverRefuses_fault _
  · exact neverRefuses_next _
  · split
    · exact State.awaitRead_neverRefuses fun _ _ => neverRefuses_next _
    · split
      · exact State.awaitRead_neverRefuses fun _ _ => neverRefuses_next _
      · exact neverRefuses_fault _

/-- Every command has a meaning: `exec` refuses none of them. -/
theorem exec_neverRefuses (i : Instr) (s : State) : NeverRefuses (exec i s) := by
  cases i with
  | read16 | readDeviceId | readLuxFixed | readLuxFloat =>
    exact State.memRead_neverRefuses fun _ _ => neverRefuses_next _
  | write16 | writeConfig0 | writeConfig1 =>
    exact State.memWrite_neverRefuses fun _ => neverRefuses_next _
  | readChannelAdc a => exact execReadChannelAdc_neverRefuses a s
  | decodePair | decodeLux => exact neverRefuses_next _

theorem step_of_paramRefusal {s : State} {r : Refusal} (h : paramRefusal s.params = some r) :
    step s = .refused r := by
  simp only [step, h]

theorem step_neverRefuses {s : State} (h : paramRefusal s.params = none) :
    NeverRefuses (step s) := by
  simp only [step, h]
  split
  · exact neverRefuses_next _
  · split
    · exact neverRefuses_next _
    · exact exec_neverRefuses _ _
    · exact neverRefuses_next _

theorem paramRefusal_of_adcW_lt {p : Params} (h : p.adcW < 35) :
    paramRefusal p = some .adcWidthBelow35 := if_pos h

theorem paramRefusal_of_deviceAddr_gt {p : Params} (h : 35 ≤ p.adcW) (hd : 0x7F < p.deviceAddr) :
    paramRefusal p = some .deviceAddrAbove7F :=
  (if_neg (Nat.not_lt.mpr h)).trans (if_pos hd)

/-- Settles O12: the parameters alone decide, since no command and no turn of the host refuses. -/
theorem illegalInstanceIsRefused : Obligations.IllegalInstanceIsRefused :=
  ⟨fun _ h => step_of_paramRefusal (paramRefusal_of_adcW_lt h),
    fun _ h hd => step_of_paramRefusal (paramRefusal_of_deviceAddr_gt h hd),
    fun _ h => step_neverRefuses (paramRefusal_none h)⟩

end Sys2Proof.Machine
end

section
/-! PROOFS. The finite patterns of binary64 stand for rising numbers, so that the value nearest to a number is
found by looking at the two neighbours of a pattern (00_scope.md R13). -/

namespace Sys2Proof.Machine.Binary64

/-- The number that the pattern `n` stands for, counted in the least positive value `2 ^ -1074`: a whole
number, which `value_eq_units` ties to `value`. -/
def units (n : Nat) : Nat :=
  if n / 2 ^ 52 = 0 then n % 2 ^ 52 else (2 ^ 52 + n % 2 ^ 52) * 2 ^ (n / 2 ^ 52 - 1)

/-- From one pattern to the next the number grows by one last place, also where the fraction carries into
the exponent field. -/
theorem units_succ (n : Nat) : units (n + 1) = units n + 2 ^ (n / 2 ^ 52 - 1) := by
  by_cases hc : n % 2 ^ 52 + 1 < 2 ^ 52
  · have hq : (n + 1) / 2 ^ 52 = n / 2 ^ 52 := by omega
    have hr : (n + 1) % 2 ^ 52 = n % 2 ^ 52 + 1 := by omega
    unfold units
    rw [hq, hr]
    split
    · rename_i h0
      rw [h0, Nat.zero_sub, pow_zero]
    · ring
  · have hq : (n + 1) / 2 ^ 52 = n / 2 ^ 52 + 1 := by omega
    have hr : (n + 1) % 2 ^ 52 = 0 := by omega
    have hf : n % 2 ^ 52 = 2 ^ 52 - 1 := by omega
    unfold units
    rw [hq, hr, hf, if_neg (Nat.succ_ne_zero _)]
    rcases n / 2 ^ 52 with _ | e
    · rfl
    · simp only [Nat.add_sub_cancel, if_neg (Nat.succ_ne_zero e), pow_succ]
      ring

theorem units_strictMono : StrictMono units :=
  strictMono_nat_of_lt_succ fun n => by
    rw [units_succ]
    exact Nat.lt_add_of_pos_right (Nat.two_pow_pos _)

/-- What a pattern without a sign stands for, in units of the least positive value. -/
theorem value_eq_units {b : BitVec 64} (hb : b.toNat < 2 ^ 63) :
    value b = units b.toNat * (2 : ℚ) ^ (-1074 : ℤ) := by
  have he : (b.extractLsb' 52 11).toNat = b.toNat / 2 ^ 52 := by
    rw [BitVec.extractLsb'_toNat, Nat.shiftRight_eq_div_pow]
    omega
  have hf : (b.extractLsb' 0 52).toNat = b.toNat % 2 ^ 52 := by
    rw [BitVec.extractLsb'_toNat, Nat.shiftRight_zero]
  simp only [value, unpack, units, he, hf]
  split
  · rfl
  · rename_i h0
    have hexp : ((b.toNat / 2 ^ 52 : Nat) : ℤ) - 1075 =
        ((b.toNat / 2 ^ 52 - 1 : Nat) : ℤ) + -1074 := by omega
    rw [hexp, zpow_add₀ two_ne_zero, zpow_natCast, Nat.cast_mul, Nat.cast_pow 2, Nat.cast_ofNat,
      mul_assoc]

/-- Patterns without a sign are ordered as their numbers are. -/
theorem value_le_value {b c : BitVec 64} (h : b ≤ c) (hc : c ≤ infinity) : value b ≤ value c := by
  have hc' : c.toNat ≤ infinity.toNat := hc
  have hb' : b.toNat ≤ c.toNat := h
  have hi : infinity.toNat < 2 ^ 63 := by decide
  rw [value_eq_units (by omega), value_eq_units (by omega)]
  have hu : units b.toNat ≤ units c.toNat := units_strictMono.monotone hb'
  gcongr

/-- A pattern nearer to `x` than both its neighbours, which lie on either side of `x`, is the nearest of all. -/
theorem isNearest_of_neighbours {x : ℚ} {lo b hi : BitVec 64} (hlo : lo.toNat + 1 = b.toNat)
    (hhi : b.toNat + 1 = hi.toNat) (hb : b < infinity)
    (hxlo : |value b - x| < x - value lo) (hxhi : |value b - x| < value hi - x) :
    IsNearest x b := by
  have hb' : b.toNat < infinity.toNat := hb
  refine ⟨hb, fun c hc hne => .inl ?_⟩
  have hc' : c.toNat < infinity.toNat := hc
  rcases Nat.lt_or_gt_of_ne (mt BitVec.eq_of_toNat_eq hne) with hcb | hbc
  · have hle : value c ≤ value lo :=
      value_le_value (BitVec.le_def.mpr (by omega)) (BitVec.le_def.mpr (by omega))
    calc |value b - x| < x - value lo := hxlo
      _ ≤ -(value c - x) := by linarith
      _ ≤ |value c - x| := neg_le_abs _
  · have hle : value hi ≤ value c :=
      value_le_value (BitVec.le_def.mpr (by omega)) (BitVec.le_def.mpr (by omega))
    calc |value b - x| < value hi - x := hxhi
      _ ≤ value c - x := by linarith
      _ ≤ |value c - x| := le_abs_self _

/-! ### The constant `C001` and its neighbours -/

theorem value_c001 : value c001 = 0x147AE147AE147B * (2 : ℚ) ^ (-59 : ℤ) := rfl

theorem value_below_c001 : value 0x3F847AE147AE147A = 0x147AE147AE147A * (2 : ℚ) ^ (-59 : ℤ) := rfl

theorem value_above_c001 : value 0x3F847AE147AE147C = 0x147AE147AE147C * (2 : ℚ) ^ (-59 : ℤ) := rfl

/-- Settles O38: `C001` is nearer to 1/100 than the patterns just below and just above it. -/
theorem hundredthConstantIsNearest : Obligations.HundredthConstantIsNearest := by
  refine isNearest_of_neighbours (lo := 0x3F847AE147AE147A) (hi := 0x3F847AE147AE147C)
    (by decide) (by decide) (by decide) ?_ ?_
  · rw [value_c001, value_below_c001]
    norm_num [abs_lt]
  · rw [value_c001, value_above_c001]
    norm_num [abs_lt]

end Sys2Proof.Machine.Binary64
end

section
/-! PROOFS. Everything a step of the whole machine can be, and what every engine step of a command leaves alone,
said once for all commands (30_encoding.md R90 to R94; 10_state.md R31, R33). -/

namespace Sys2Proof.Machine

/-! ### The host's turn and the step -/

/-- A step of the host alone: a reset, or a word taken from the port. -/
theorem State.hostTurn_taken {s t : State} (h : s.hostTurn = .taken t) :
    (∃ rest, s.host = .reset :: rest ∧ t = { s.applyReset with host := rest }) ∨
    ∃ w rest, s.host = .offer w :: rest ∧ s.phase = .idle ∧ t = { s.accept w with host := rest } := by
  rcases s.hostTurn_cases with ⟨-, e⟩ | ⟨_, -, e⟩ | ⟨_, -, -, e⟩ | ⟨_, -, -, e⟩ | ⟨rest, hh, e⟩ |
    ⟨w, rest, hh, hp, e⟩ | ⟨_, _, -, -, e⟩ <;> rw [h] at e <;> cases e
  · exact .inl ⟨rest, hh, rfl⟩
  · exact .inr ⟨w, rest, hh, hp, rfl⟩

/-- The engine goes on from where it was: the host did not reset, and only its own list has moved. -/
theorem State.hostTurn_engine {s u : State} (h : s.hostTurn = .engine u) :
    Claims.NoReset s ∧ ∃ rest, u = { s with host := rest } := by
  rcases s.hostTurn_cases with ⟨hh, e⟩ | ⟨_, hh, e⟩ | ⟨_, hh, -, e⟩ | ⟨_, hh, -, e⟩ | ⟨_, -, e⟩ |
    ⟨_, _, -, -, e⟩ | ⟨_, _, hh, -, e⟩ <;> rw [h] at e <;> cases e <;>
    exact ⟨by simp [Claims.NoReset, hh], _, rfl⟩

/-- What a step of the machine that answers a next state can have been. -/
inductive Stepped (s : State) : State → Prop where
  /-- The host reset the machine. -/
  | reset {rest : List HostAction} (hh : s.host = .reset :: rest) :
      Stepped s { s.applyReset with host := rest }
  /-- A word was taken from the port. -/
  | accepted {w : CmdWord} {rest : List HostAction} (hh : s.host = .offer w :: rest)
      (hp : s.phase = .idle) : Stepped s { s.accept w with host := rest }
  /-- The engine waited for a command. -/
  | waited {rest : List HostAction} (hn : Claims.NoReset s) (hp : s.phase = .idle) :
      Stepped s { s with host := rest }
  /-- The engine made a step of the command in `CUR`. -/
  | ran {rest : List HostAction} {i : Instr} {t : State} (hn : Claims.NoReset s)
      (hp : s.phase = .busy) (hd : decode s.cur = some i) (ht : Did i { s with host := rest } t) :
      Stepped s t
  /-- The engine completed an illegal word. -/
  | illegal {rest : List HostAction} (hn : Claims.NoReset s) (hp : s.phase = .busy)
      (hd : decode s.cur = none) :
      Stepped s (State.raise .illegalCommand { s with host := rest })

theorem step_stepped {s t : State} (h : step s = .next t) : Stepped s t := by
  obtain ⟨-, ht | ⟨u, hu, ht⟩⟩ := step_cases h
  · rcases State.hostTurn_taken ht with ⟨rest, hh, rfl⟩ | ⟨w, rest, hh, hp, rfl⟩
    · exact .reset hh
    · exact .accepted hh hp
  · obtain ⟨hn, rest, rfl⟩ := State.hostTurn_engine hu
    rcases ht with ⟨hp, rfl⟩ | ⟨hp, i, hd, he⟩ | ⟨hp, hd, rfl⟩
    · exact .waited hn hp
    · exact .ran hn hp hd (exec_cases he)
    · exact .illegal hn hp hd

/-! ### What an engine step of a command leaves alone -/

section
variable {s t u : State} {i : Instr} {x : Transaction} {c : DataRegs → DataRegs}

/-- The commit blocks there are (R93). -/
theorem Committed.commit_cases (h : Committed s i u c) :
    c = commitNothing ∨ (∃ v, c = commitRaw v) ∨ (∃ f g, c = commitPair f g) ∨
      (∃ r, c = commitLuxFixed r) ∨ ∃ r, c = commitLuxFloat r := by
  cases h <;> simp

/-- A command completes where it was, or after its last transaction has returned, which for a write has
stored the value in the device. -/
theorem Committed.state_cases (h : Committed s i u c) :
    (transactionsOf s.dev i = [] ∧ u = s) ∨ u = s.consumeEvent.retire ∨
      ∃ reg v, writeOf s.dev reg v ∈ transactionsOf s.dev i ∧
        u = s.consumeEvent.retire.deviceStore reg v := by
  cases h with
  | decodePair | decodeLux => exact .inl ⟨rfl, rfl⟩
  | read16 | readDeviceId | readChannelAdc | readLuxFixed | readLuxFloat => exact .inr (.inl rfl)
  | write16 | writeConfig0 | writeConfig1 =>
    exact .inr (.inr ⟨_, _, List.mem_singleton_self _, rfl⟩)

theorem Aborted.out_eq (h : Aborted s x u) : u.out = s.out := by cases h <;> simp

theorem Committed.out_eq (h : Committed s i u c) : u.out = s.out := by
  rcases h.state_cases with ⟨-, rfl⟩ | rfl | ⟨reg, v, -, rfl⟩ <;> simp

theorem Aborted.latch0_eq (h : Aborted s x u) : u.latch0 = s.latch0 := by cases h <;> simp

theorem Committed.latch0_eq (h : Committed s i u c) : u.latch0 = s.latch0 := by
  rcases h.state_cases with ⟨-, rfl⟩ | rfl | ⟨reg, v, -, rfl⟩ <;> simp

theorem Aborted.sameSession (h : Aborted s x u) : s.SameSession u := by
  cases h <;> simp [State.SameSession]

theorem Committed.sameSession (h : Committed s i u c) : s.SameSession u := by
  rcases h.state_cases with ⟨-, rfl⟩ | rfl | ⟨reg, v, -, rfl⟩ <;> simp [State.SameSession]

/-- No command changes the parameters, `SESSION.DEV`, `CUR` or the host's actions (R33). -/
theorem Did.sameSession (h : Did i s t) : s.SameSession t := by
  cases h with
  | issued | waited | overflowed | latched => simp [State.SameSession]
  | aborted _ _ _ hu => exact hu.sameSession
  | committed hc => exact hc.sameSession

/-- Until a command completes, the output registers and the device stay as they are (R31). -/
theorem Did.kept_of_busy (h : Did i s t) (ht : t.phase = .busy) :
    t.status = s.status ∧ t.out = s.out ∧ t.devreg = s.devreg := by
  cases h with
  | issued | waited | latched => simp
  | overflowed | aborted | committed => cases ht

/-- A command that completes writes `STATUS`, with its own OP and a code (R27, R29, R93); with an exception it
writes no data register (R32). -/
theorem Did.completion (h : Did i s t) (hs : s.phase = .busy) (ht : t.phase = .idle) :
    t.status = Status.success s.cur.toCmd.op ∨
      ∃ e, t.status = Status.failure e s.cur.toCmd.op ∧ t.out = s.out := by
  cases h with
  | issued | waited | latched => simp [hs] at ht
  | overflowed => exact .inr ⟨_, rfl, rfl⟩
  | aborted _ _ _ hu =>
    obtain ⟨-, -, hcur, -⟩ := hu.sameSession
    exact .inr ⟨_, by rw [State.raise_status, hcur], hu.out_eq⟩
  | committed hc =>
    obtain ⟨-, -, hcur, -⟩ := hc.sameSession
    exact .inl (by rw [State.complete_status, hcur])

/-- The data registers change only by the commit block of a command that succeeds (R31, R32). -/
theorem Did.out_cases (h : Did i s t) : t.out = s.out ∨ ∃ u c, Committed s i u c ∧ t.out = c s.out := by
  cases h with
  | issued | waited | overflowed | latched => simp
  | aborted _ _ _ hu => exact .inl hu.out_eq
  | committed hc => exact .inr ⟨_, _, hc, by rw [State.complete_out, hc.out_eq]⟩

/-- `LATCH0` takes a value only when READ_CHANNEL_ADC's first read returns one (R140). -/
theorem Did.latch0_cases (h : Did i s t) :
    t.latch0 = s.latch0 ∨
      ∃ a, i = .readChannelAdc a ∧ s.pend = some (.read s.dev a) ∧ t.phase = s.phase := by
  cases h with
  | issued | waited | overflowed => simp
  | aborted _ _ _ hu => exact .inl hu.latch0_eq
  | latched hi _ hp => exact .inr ⟨_, hi, hp, by simp⟩
  | committed hc => exact .inl hc.latch0_eq

/-- The device's registers change only where the command writes (R38, R104). -/
theorem Did.devreg_read (h : Did i s t) {a : Nat}
    (ha : ∀ d r b0 b1, .write d r b0 b1 ∈ transactionsOf s.dev i → a ≠ r.toNat) :
    t.devreg.read a = s.devreg.read a := by
  cases h with
  | issued | waited | overflowed | latched => simp
  | aborted _ hx _ hu =>
    cases hu with
    | read => simp
    | write => simpa using State.deviceUnknown_read_other (s := s.consumeEvent.retire) a (ha _ _ _ _ hx)
  | committed hc =>
    rcases hc.state_cases with ⟨-, rfl⟩ | rfl | ⟨reg, v, hx, rfl⟩
    · simp
    · simp
    · simpa using State.deviceStore_read_other (s := s.consumeEvent.retire) a (ha _ _ _ _ hx)

end

end Sys2Proof.Machine
end

section
/-! PROOFS. The invariant: each operation on the state keeps it, so every step does (10_state.md R22 to R27). -/

namespace Sys2Proof.Machine

/-! ### The data registers stay coherent -/

theorem shiftLeft_toNat_lt {w : Nat} (m : BitVec w) (e : BitVec 4) :
    m.toNat <<< e.toNat < 2 ^ (w + 15) :=
  calc m.toNat <<< e.toNat = m.toNat * 2 ^ e.toNat := Nat.shiftLeft_eq _ _
    _ < 2 ^ w * 2 ^ e.toNat := Nat.mul_lt_mul_of_pos_right m.isLt (Nat.two_pow_pos _)
    _ ≤ 2 ^ w * 2 ^ 15 :=
      Nat.mul_le_mul_left _ (Nat.pow_le_pow_right Nat.two_pos (Nat.le_of_lt_succ e.isLt))
    _ = 2 ^ (w + 15) := (Nat.pow_add 2 w 15).symm

/-- No bit of an ADC code is lost in a register of 40 bits (R126). -/
theorem toNat_ofNat_adcCode (f g : Half) :
    (BitVec.ofNat 40 (decodePair f g).adcCode).toNat = (decodePair f g).adcCode := by
  have h : (decodePair f g).adcCode < 2 ^ (20 + 15) := shiftLeft_toNat_lt _ _
  exact Nat.mod_eq_of_lt (by omega)

/-- No bit of a fixed-point lux value is lost in a register of 32 bits (R146). -/
theorem toNat_ofNat_luxFixed (r : Half) :
    (BitVec.ofNat 32 (decodeLux r).fixed).toNat = (decodeLux r).fixed := by
  have h : (decodeLux r).fixed < 2 ^ (12 + 15) := shiftLeft_toNat_lt _ _
  exact Nat.mod_eq_of_lt (by omega)

/-- Every commit block writes the registers of one decoding together (R24). -/
theorem Committed.coherent {s u : State} {i : Instr} {c : DataRegs → DataRegs} {o : DataRegs}
    (h : Committed s i u c) (ho : o.Coherent) : (c o).Coherent := by
  obtain ⟨hpair, hfix, hflt⟩ := ho
  rcases h.commit_cases with rfl | ⟨v, rfl⟩ | ⟨f, g, rfl⟩ | ⟨r, rfl⟩ | ⟨r, rfl⟩
  · exact ⟨hpair, hfix, hflt⟩
  · exact ⟨hpair, hfix, hflt⟩
  · exact ⟨⟨f, rfl, rfl, rfl, rfl, toNat_ofNat_adcCode f g⟩, hfix, hflt⟩
  · exact ⟨hpair, ⟨r, toNat_ofNat_luxFixed r⟩, hflt⟩
  · exact ⟨hpair, ⟨r, toNat_ofNat_luxFixed r⟩, ⟨r, rfl⟩⟩

theorem DataRegs.coherent_reset : DataRegs.Coherent {} :=
  ⟨⟨0, by decide⟩, ⟨0, by decide⟩, ⟨0, by decide⟩⟩

/-! ### `STATUS` after a completion, and `PEND` -/

theorem Status.success_consistent (op : Byte) : (Status.success op).consistent = true := rfl

theorem Status.failure_consistent (e : Exception) (op : Byte) :
    (Status.failure e op).consistent = true := by
  cases e <;> rfl

section
variable {s t u : State} {i : Instr} {x : Transaction} {c : DataRegs → DataRegs}

namespace State

theorem pendConsistent_of_none (hp : s.pend = none) : s.pendConsistent = true := by
  simp [pendConsistent, hp]

/-- While BUSY with a legal command, `PEND` is consistent when it holds one of that command's transactions. -/
theorem pendConsistent_of_mem (hb : s.phase = .busy) (hd : decode s.cur = some i)
    (hp : s.pend = some x) (hx : x ∈ transactionsOf s.dev i) : s.pendConsistent = true := by
  simpa [pendConsistent, hb, hd, hp] using hx

/-- A consistent `PEND` holds a transaction only while BUSY, with a command that issues it. -/
theorem pendConsistent_some (h : s.pendConsistent = true) (hp : s.pend = some x) :
    s.phase = .busy ∧ ∃ i, decode s.cur = some i ∧ x ∈ transactionsOf s.dev i := by
  unfold pendConsistent at h
  rw [hp] at h
  rcases hph : s.phase with _ | _
  · simp [hph] at h
  · rcases hd : decode s.cur with _ | i
    · simp [hph, hd] at h
    · exact ⟨rfl, i, rfl, by simpa [hph, hd] using h⟩

/-! ### Each operation keeps the invariant -/

namespace Inv

/-- No transaction is outstanding but in a command that issues some (R23). -/
theorem pend_none (h : s.Inv)
    (hn : s.phase = .busy → ∀ i, decode s.cur = some i → transactionsOf s.dev i = []) :
    s.pend = none := by
  rcases hx : s.pend with _ | x
  · rfl
  · obtain ⟨hb, i, hd, hm⟩ := pendConsistent_some h.pend_ok hx
    simp [hn hb i hd] at hm

theorem withHost (h : s.Inv) (rest : List HostAction) : Inv { s with host := rest } :=
  { h with }

theorem accept (h : s.Inv) (hp : s.phase = .idle) (w : CmdWord) : (s.accept w).Inv :=
  { h with pend_ok := pendConsistent_of_none (h.pend_none (by simp [hp])) }

theorem issue (h : s.Inv) (hb : s.phase = .busy) (hd : decode s.cur = some i)
    (hx : x ∈ transactionsOf s.dev i) : (s.issue x).Inv :=
  { h with pend_ok := pendConsistent_of_mem hb hd rfl hx }

theorem latch (h : s.Inv) (v : Half) : (s.latch v).Inv := { h with }

theorem retire (h : s.Inv) : s.retire.Inv := { h with pend_ok := pendConsistent_of_none rfl }

theorem consumeEvent (h : s.Inv) : s.consumeEvent.Inv := by
  unfold State.consumeEvent
  split <;> exact { h with }

theorem deviceStore (h : s.Inv) (reg : Byte) (v : Half) : (s.deviceStore reg v).Inv := by
  unfold State.deviceStore
  split
  · exact h
  · rename_i hm
    exact { h with
      mem_wf := Memory.wf_put h.mem_wf reg.isLt (some v)
      mem_unused := fun hu => by simp [hm] at hu }

theorem deviceUnknown (h : s.Inv) (reg : Byte) : (s.deviceUnknown reg).Inv := by
  unfold State.deviceUnknown
  split
  · exact h
  · rename_i hm
    exact { h with
      mem_wf := Memory.wf_put h.mem_wf reg.isLt _
      mem_unused := fun hu => by simp [hm] at hu }

theorem cutOff (h : s.Inv) : s.cutOff.Inv := by
  unfold State.cutOff
  split
  · exact h.deviceUnknown _
  · exact h
  · exact h

theorem raise (h : s.Inv) (hp : s.pend = none) (e : Exception) : (s.raise e).Inv :=
  { h with
    pend_ok := pendConsistent_of_none hp
    status_ok := Status.failure_consistent e _
    fresh := fun hv => nomatch hv }

theorem complete (h : s.Inv) (hp : s.pend = none) (hc : (c s.out).Coherent) : (s.complete c).Inv :=
  { h with
    pend_ok := pendConsistent_of_none hp
    status_ok := Status.success_consistent _
    fresh := fun hv => nomatch hv
    coherent := hc }

/-- Reset loads `SESSION.DEV` and clears the rest (R22, R39). -/
theorem applyReset (h : s.Inv) : s.applyReset.Inv :=
  { h.cutOff with
    dev_eq := by
      have hd : s.params.deviceAddr ≤ 0x7F := h.legal.2
      simp only [applyReset_dev, applyReset_params, BitVec.toNat_ofNat]
      omega
    pend_ok := pendConsistent_of_none rfl
    status_ok := rfl
    fresh := fun _ => rfl
    coherent := DataRegs.coherent_reset }

end Inv
end State

/-! ### Every step keeps the invariant -/

theorem Aborted.inv (ha : Aborted s x u) (h : s.Inv) : u.Inv ∧ u.pend = none := by
  cases ha with
  | read => exact ⟨h.consumeEvent.retire, rfl⟩
  | write => exact ⟨h.consumeEvent.retire.deviceUnknown _, by simp⟩

theorem Committed.inv (hc : Committed s i u c) (h : s.Inv) (hd : decode s.cur = some i) :
    u.Inv ∧ u.pend = none := by
  rcases hc.state_cases with ⟨hi, rfl⟩ | rfl | ⟨reg, v, -, rfl⟩
  · exact ⟨h, h.pend_none (by simp [hd, hi])⟩
  · exact ⟨h.consumeEvent.retire, rfl⟩
  · exact ⟨h.consumeEvent.retire.deviceStore _ _, by simp⟩

/-- An engine step of the command in `CUR` keeps the invariant. -/
theorem Did.inv (ht : Did i s t) (h : s.Inv) (hb : s.phase = .busy) (hd : decode s.cur = some i) :
    t.Inv := by
  cases ht with
  | issued _ hx => exact h.issue hb hd (List.mem_of_head? hx)
  | waited => exact h.consumeEvent
  | aborted _ _ _ hu => exact (hu.inv h).1.raise (hu.inv h).2 _
  | overflowed _ hp => exact h.raise hp _
  | latched hi ha =>
    subst hi
    exact (h.consumeEvent.retire.latch _).issue (by simpa using hb) (by simpa using hd)
      (by simp [transactionsOf_readChannelAdc _ ha])
  | committed hc =>
    obtain ⟨hu, hp⟩ := hc.inv h hd
    exact hu.complete hp (hc.coherent hu.coherent)

theorem Stepped.inv (ht : Stepped s t) (h : s.Inv) : t.Inv := by
  cases ht with
  | reset => exact h.applyReset.withHost _
  | accepted _ hp => exact (h.accept hp _).withHost _
  | waited => exact h.withHost _
  | ran _ hb hd hi => exact hi.inv (h.withHost _) hb hd
  | @illegal rest _ _ hd => exact (h.withHost rest).raise (h.pend_none (by simp [hd])) _

end

/-- Settles O52: whatever the step was, it is made of operations that each keep the invariant. -/
theorem everyStepKeepsTheInvariant : Obligations.EveryStepKeepsTheInvariant :=
  fun _ _ h ht => (step_stepped ht).inv h

/-- Settles O51: every clause is about the one literal state. -/
theorem resetStateMeetsTheInvariant : Obligations.ResetStateMeetsTheInvariant where
  legal := by decide
  dev_eq := rfl
  mem_wf := Memory.wf_reset
  mem_unused _ := rfl
  pend_ok := rfl
  status_ok := rfl
  fresh _ := rfl
  coherent := DataRegs.coherent_reset

end Sys2Proof.Machine
end

section
/-! PROOFS. What each group of commands leaves unchanged, from what every engine step leaves alone
(10_state.md R24, R33). -/

namespace Sys2Proof.Machine

section
variable {s t : State} {i : Instr}

/-- A command that writes nothing to the device leaves its registers as they are (R38). -/
theorem Did.devreg_read_of_reads (h : Did i s t)
    (hi : ∀ x ∈ transactionsOf s.dev i, ∃ reg, x = .read s.dev reg) (a : Nat) :
    t.devreg.read a = s.devreg.read a :=
  h.devreg_read fun _ _ _ _ hx => by
    obtain ⟨reg, e⟩ := hi _ hx
    cases e

/-- Only READ_CHANNEL_ADC changes `LATCH0`. -/
theorem Did.latch0_eq (h : Did i s t) (hi : ∀ a, i ≠ .readChannelAdc a) : t.latch0 = s.latch0 :=
  h.latch0_cases.resolve_right fun ⟨a, e, _⟩ => hi a e

theorem readChannelAdc_transactions (d : DevAddr) (a : Byte) :
    ∀ x ∈ transactionsOf d (.readChannelAdc a), ∃ reg, x = .read d reg := by
  by_cases ha : a = 0xFF
  · simp [transactionsOf, ha]
  · simp [transactionsOf_readChannelAdc d ha]

/-- The commands with one write: what they write, and where. -/
theorem writing_transactions {d : DevAddr} {reg target : Byte} {v : Half}
    (hi : (i = .write16 reg v ∧ target = reg) ∨ (i = .writeConfig0 ∧ target = 0x0A) ∨
      (i = .writeConfig1 ∧ target = 0x0B)) :
    ∃ x, transactionsOf d i = [writeOf d target x] := by
  rcases hi with ⟨rfl, rfl⟩ | ⟨rfl, rfl⟩ | ⟨rfl, rfl⟩ <;> exact ⟨_, rfl⟩

end

/-- Settles O43: the command issues reads only, and its commit block names the registers it writes. -/
theorem singleReadCommandsFrame : Obligations.SingleReadCommandsFrame := by
  intro s t i reg hi h
  have hd := exec_cases h
  have hreads : ∀ x ∈ transactionsOf s.dev i, ∃ reg, x = .read s.dev reg := by
    rcases hi with rfl | rfl | rfl | rfl <;> simp [transactionsOf]
  have hlatch : ∀ a, i ≠ .readChannelAdc a := by
    rcases hi with rfl | rfl | rfl | rfl <;> simp
  refine ⟨hd.sameSession, hd.latch0_eq hlatch, hd.devreg_read_of_reads hreads, fun hb => ?_, ?_⟩
  · obtain ⟨hst, hout, -⟩ := hd.kept_of_busy hb
    exact ⟨hst, hout⟩
  · rcases hd.out_cases with hout | ⟨u, c, hc, hout⟩ <;> rw [hout]
    · exact ⟨fun _ => rfl, fun _ => rfl, fun _ => rfl⟩
    · refine ⟨?_, ?_, ?_⟩
      · rintro (rfl | rfl) <;> cases hc <;> rfl
      · rintro rfl
        cases hc
        rfl
      · rintro rfl
        cases hc
        rfl

/-- Settles O44: the command's one write names its offset, and its commit block is empty. -/
theorem writingCommandsFrame : Obligations.WritingCommandsFrame := by
  intro s t i reg v target hi h
  have hd := exec_cases h
  obtain ⟨x, hx⟩ := writing_transactions (d := s.dev) hi
  have hlatch : ∀ a, i ≠ .readChannelAdc a := by
    rcases hi with ⟨rfl, -⟩ | ⟨rfl, -⟩ | ⟨rfl, -⟩ <;> simp
  refine ⟨hd.sameSession, hd.latch0_eq hlatch, ?_, fun a ha => hd.devreg_read ?_, fun hb => ?_⟩
  · rcases hd.out_cases with hout | ⟨u, c, hc, hout⟩
    · exact hout
    · rw [hout]
      rcases hi with ⟨rfl, -⟩ | ⟨rfl, -⟩ | ⟨rfl, -⟩ <;> cases hc <;> rfl
  · intro d r b0 b1 hm
    rw [hx, List.mem_singleton] at hm
    cases hm
    exact ha
  · obtain ⟨hst, -, hdev⟩ := hd.kept_of_busy hb
    exact ⟨hst, hdev⟩

/-- Settles O45: the command issues reads only, and its commit block is the pair's. -/
theorem readChannelAdcFrame : Obligations.ReadChannelAdcFrame := by
  intro s t a h
  have hd := exec_cases h
  have hlux : t.out.luxfix = s.out.luxfix ∧ t.out.luxflt = s.out.luxflt := by
    rcases hd.out_cases with hout | ⟨u, c, hc, hout⟩ <;> rw [hout]
    · exact ⟨rfl, rfl⟩
    · cases hc
      exact ⟨rfl, rfl⟩
  refine ⟨hd.sameSession, hd.devreg_read_of_reads (readChannelAdc_transactions _ a), hlux.1, hlux.2,
    fun hb => ?_, fun hl => ?_⟩
  · obtain ⟨hst, hout, -⟩ := hd.kept_of_busy hb
    exact ⟨hst, hout⟩
  · obtain ⟨b, hi, hp, hph⟩ := hd.latch0_cases.resolve_left hl
    cases hi
    exact ⟨hp, hph⟩

/-- Settles O46: the one step of either command is its completion. -/
theorem decodeOnlyCommandsFrame : Obligations.DecodeOnlyCommandsFrame := by
  refine ⟨fun s t f g h => ?_, fun s t r h => ?_⟩ <;> cases h
  · exact ⟨rfl, rfl, rfl⟩
  · exact ⟨rfl, rfl, rfl, rfl, rfl, rfl, rfl⟩

end Sys2Proof.Machine
end

section
/-! PROOFS. What the whole machine keeps in every step, and what `STATUS` and the reset state are
(10_state.md R22, R25 to R32, R39). -/

namespace Sys2Proof.Machine

/-- Settles O47: a step that leaves the engine BUSY keeps the registers, and only the command cycle
can write them. -/
theorem outputRegistersChangeOnlyAtCompletion : Obligations.OutputRegistersChangeOnlyAtCompletion := by
  intro s t h hn hne
  cases step_stepped h with
  | reset hh => exact absurd hh (hn _)
  | accepted | waited => simp at hne
  | illegal _ hb => exact ⟨hb, rfl⟩
  | ran _ hb _ hd =>
    rcases ht : t.phase with _ | _
    · exact ⟨hb, rfl⟩
    · obtain ⟨hst, hout, -⟩ := hd.kept_of_busy ht
      simp [hst, hout] at hne

/-- A step that completes a command writes `STATUS` as a success or as an exception, and with an exception
it writes no data register. -/
theorem Stepped.completion {s t : State} (h : Stepped s t) (hn : Claims.NoReset s)
    (hb : s.phase = .busy) (ht : t.phase = .idle) :
    t.status = Status.success s.cur.toCmd.op ∨
      ∃ e, t.status = Status.failure e s.cur.toCmd.op ∧ t.out = s.out := by
  cases h with
  | reset hh => exact absurd hh (hn _)
  | accepted _ hp | waited _ hp => simp [hb] at hp
  | ran _ _ _ hd => exact hd.completion hb ht
  | illegal => exact .inr ⟨_, rfl, rfl⟩

/-- Settles O48: a completing step writes `STATUS` as a success or as one of the three exceptions. -/
theorem completionWritesStatus : Obligations.CompletionWritesStatus := by
  intro s t h hn hb ht
  rcases (step_stepped h).completion hn hb ht with hst | ⟨e, hst, hout⟩ <;> rw [hst]
  · exact ⟨rfl, rfl, .inl ⟨rfl, rfl⟩⟩
  · refine ⟨rfl, rfl, .inr ⟨rfl, hout, ?_⟩⟩
    cases e with
    | busError => exact .inl rfl
    | illegalCommand => exact .inr (.inl rfl)
    | addrOverflow => exact .inr (.inr rfl)

theorem Stepped.params_eq {s t : State} (h : Stepped s t) : t.params = s.params := by
  cases h with
  | reset => simp
  | accepted | waited | illegal => rfl
  | ran _ _ _ hd =>
    obtain ⟨hp, -⟩ := hd.sameSession
    exact hp

/-- A machine that steps has legal parameters (R94 c). -/
theorem paramsLegal_of_step {s t : State} (h : step s = .next t) : s.ParamsLegal := by
  obtain ⟨hp, -⟩ := step_cases h
  by_contra hl
  by_cases hw : s.params.adcW < 35
  · simp [paramRefusal_of_adcW_lt hw] at hp
  · simp [paramRefusal_of_deviceAddr_gt (p := s.params) (by omega) (by omega)] at hp

/-- Settles O49: a reset loads the parameter, which is legal and so fits, and no command writes it. -/
theorem deviceAddressChangesOnlyAtReset : Obligations.DeviceAddressChangesOnlyAtReset := by
  intro s t h
  obtain ⟨-, hlegal⟩ := paramsLegal_of_step h
  refine ⟨(step_stepped h).params_eq, ?_⟩
  cases step_stepped h with
  | @reset rest hh =>
    refine ⟨fun hn => absurd hh (hn _), fun _ => ?_⟩
    simp only [State.applyReset_dev, BitVec.toNat_ofNat]
    omega
  | accepted hh => exact ⟨fun _ => rfl, fun hn => absurd (by simp [Claims.NoReset, hh]) hn⟩
  | waited hn | illegal hn => exact ⟨fun _ => rfl, absurd hn⟩
  | ran hn _ _ hd =>
    obtain ⟨-, hdev, -⟩ := hd.sameSession
    exact ⟨fun _ => hdev, absurd hn⟩

/-- The bits of `STATUS`, from the lowest field up (R25). -/
theorem State.getLsbD_statusWord (s : State) (k : Nat) :
    s.statusWord.getLsbD k =
      if k < 1 then (BitVec.ofBool s.status.valid).getLsbD k
      else if k < 2 then (BitVec.ofBool s.status.err).getLsbD (k - 1)
      else if k < 6 then s.status.ecode.getLsbD (k - 2)
      else if k < 7 then (BitVec.ofBool s.busy).getLsbD (k - 6)
      else if k < 8 then false
      else s.status.lastop.getLsbD (k - 8) := by
  have h : s.statusWord.getLsbD k = BitVec.getLsbD (w := 8 + 1 + 1 + 4 + 1 + 1)
    (s.status.lastop ++ 0#1 ++ BitVec.ofBool s.busy ++ s.status.ecode ++
      BitVec.ofBool s.status.err ++ BitVec.ofBool s.status.valid) k := rfl
  simp only [h, BitVec.getLsbD_append, BitVec.getLsbD_zero, Nat.sub_sub]
  grind

/-- Settles O50: each field is read off the bits of the word. -/
theorem statusLayout : Obligations.StatusLayout := by
  refine fun s => ⟨?_, ?_, ?_, ?_, ?_, ?_⟩
  · rw [s.getLsbD_statusWord]
    simp
  · rw [s.getLsbD_statusWord]
    simp
  · apply BitVec.eq_of_getLsbD_eq
    intro k hk
    rw [BitVec.getLsbD_extractLsb', s.getLsbD_statusWord, if_neg (by omega), if_neg (by omega),
      if_pos (by omega), Nat.add_sub_cancel_left]
    simp [hk]
  · rw [s.getLsbD_statusWord]
    simp [State.busy]
  · rw [s.getLsbD_statusWord]
    simp
  · apply BitVec.eq_of_getLsbD_eq
    intro k hk
    rw [BitVec.getLsbD_extractLsb', s.getLsbD_statusWord, if_neg (by omega), if_neg (by omega),
      if_neg (by omega), if_neg (by omega), if_neg (by omega), Nat.add_sub_cancel_left]
    simp [hk]

/-- Settles O11: the reset state is a literal, and its registers are read one by one. -/
theorem resetStateHasTheListedValues : Obligations.ResetStateHasTheListedValues := by
  refine ⟨rfl, rfl, rfl, rfl, fun r => ?_, Memory.read_nil, rfl⟩
  cases r <;> rfl

end Sys2Proof.Machine
end

section
/-! PROOFS. The commands do not read the output registers: what an engine step does is done alike with others in
their place (10_state.md R34). -/

namespace Sys2Proof.Machine

/-- The state with other output registers. -/
def State.withRegs (s : State) (o : DataRegs) (st : Status) : State :=
  { s with out := o, status := st }

/-- Each data register is written alike in both runs, or left alone in both. -/
def DataRegs.AlikeOrKept (s t o u : DataRegs) : Prop :=
  Claims.WrittenAlikeOrKept s.raw0 t.raw0 o.raw0 u.raw0 ∧
  Claims.WrittenAlikeOrKept s.raw1 t.raw1 o.raw1 u.raw1 ∧
  Claims.WrittenAlikeOrKept s.exp t.exp o.exp u.exp ∧
  Claims.WrittenAlikeOrKept s.rmsb t.rmsb o.rmsb u.rmsb ∧
  Claims.WrittenAlikeOrKept s.rlsb t.rlsb o.rlsb u.rlsb ∧
  Claims.WrittenAlikeOrKept s.cnt t.cnt o.cnt u.cnt ∧
  Claims.WrittenAlikeOrKept s.crc t.crc o.crc u.crc ∧
  Claims.WrittenAlikeOrKept s.mant t.mant o.mant u.mant ∧
  Claims.WrittenAlikeOrKept s.adc t.adc o.adc u.adc ∧
  Claims.WrittenAlikeOrKept s.luxfix t.luxfix o.luxfix u.luxfix ∧
  Claims.WrittenAlikeOrKept s.luxflt t.luxflt o.luxflt u.luxflt

theorem DataRegs.alikeOrKept_self (s o : DataRegs) : AlikeOrKept s s o o := by
  simp [AlikeOrKept, Claims.WrittenAlikeOrKept]

section
variable {s t u : State} {i : Instr} {x : Transaction} {c : DataRegs → DataRegs}

/-- Every commit block writes a register with a value that does not depend on the registers, or keeps it. -/
theorem Committed.alikeOrKept (h : Committed s i u c) (a o : DataRegs) :
    DataRegs.AlikeOrKept a (c a) o (c o) := by
  rcases h.commit_cases with rfl | ⟨v, rfl⟩ | ⟨f, g, rfl⟩ | ⟨r, rfl⟩ | ⟨r, rfl⟩ <;>
    simp [DataRegs.AlikeOrKept, Claims.WrittenAlikeOrKept, commitNothing, commitRaw, commitPair,
      commitLuxFixed, commitLuxFloat]

/-! ### The operations on the bus and the device work alike -/

variable (o : DataRegs) (st : Status)

namespace State

@[simp] theorem withRegs_pend : (s.withRegs o st).pend = s.pend := rfl
@[simp] theorem withRegs_dev : (s.withRegs o st).dev = s.dev := rfl
@[simp] theorem withRegs_latch0 : (s.withRegs o st).latch0 = s.latch0 := rfl
@[simp] theorem nextEvent_withRegs : (s.withRegs o st).nextEvent = s.nextEvent := rfl
@[simp] theorem readValue_withRegs (reg b0 b1 : Byte) :
    (s.withRegs o st).readValue reg b0 b1 = s.readValue reg b0 b1 := rfl
@[simp] theorem retire_withRegs : (s.withRegs o st).retire = s.retire.withRegs o st := rfl

@[simp] theorem consumeEvent_withRegs :
    (s.withRegs o st).consumeEvent = s.consumeEvent.withRegs o st := by
  rcases ha : s.answers with _ | _ <;> simp [withRegs, consumeEvent, ha]

@[simp] theorem deviceStore_withRegs (reg : Byte) (v : Half) :
    (s.withRegs o st).deviceStore reg v = (s.deviceStore reg v).withRegs o st := by
  rcases hm : s.params.deviceModel with _ | _ <;> simp [withRegs, deviceStore, hm]

@[simp] theorem deviceUnknown_withRegs (reg : Byte) :
    (s.withRegs o st).deviceUnknown reg = (s.deviceUnknown reg).withRegs o st := by
  rcases hm : s.params.deviceModel with _ | _ <;> simp [withRegs, deviceUnknown, hm]

end State

theorem Aborted.withRegs (h : Aborted s x u) : Aborted (s.withRegs o st) x (u.withRegs o st) := by
  cases h with
  | read => simpa using Aborted.read (s := s.withRegs o st)
  | write => simpa using Aborted.write (s := s.withRegs o st)

theorem Committed.withRegs (h : Committed s i u c) :
    Committed (s.withRegs o st) i (u.withRegs o st) c := by
  cases h with
  | read16 hp he => simpa using Committed.read16 (s := s.withRegs o st) hp he
  | readDeviceId hp he => simpa using Committed.readDeviceId (s := s.withRegs o st) hp he
  | write16 hp he => simpa using Committed.write16 (s := s.withRegs o st) hp he
  | writeConfig0 hp he => simpa using Committed.writeConfig0 (s := s.withRegs o st) hp he
  | writeConfig1 hp he => simpa using Committed.writeConfig1 (s := s.withRegs o st) hp he
  | readChannelAdc ha hp he => simpa using Committed.readChannelAdc (s := s.withRegs o st) ha hp he
  | readLuxFixed hp he => simpa using Committed.readLuxFixed (s := s.withRegs o st) hp he
  | readLuxFloat hp he => simpa using Committed.readLuxFloat (s := s.withRegs o st) hp he
  | decodePair => exact .decodePair
  | decodeLux => exact .decodeLux

/-- The states in which one engine step of `i` ends from `s`, and from `s` with other output registers. -/
inductive SameStep (i : Instr) (s : State) (o : DataRegs) (st : Status) : State → State → Prop where
  /-- The command goes on, and the registers stay as they were. -/
  | kept {t : State} (hout : t.out = s.out) (hst : t.status = s.status) (hp : t.phase = s.phase) :
      SameStep i s o st t (t.withRegs o st)
  /-- Both end with the same exception. -/
  | raised {v : State} {e : Exception} (hv : v.out = s.out) :
      SameStep i s o st (v.raise e) ((v.withRegs o st).raise e)
  /-- Both commit the same block. -/
  | committed {v : State} {c : DataRegs → DataRegs} (hv : v.out = s.out) (hc : Committed s i v c) :
      SameStep i s o st (v.complete c) ((v.withRegs o st).complete c)

/-- With other output registers in their place an engine step of the command does the same. -/
theorem Did.withRegs (h : Did i s t) :
    ∃ u, Did i (s.withRegs o st) u ∧ SameStep i s o st t u := by
  cases h with
  | issued hp hx => exact ⟨_, .issued hp hx, .kept rfl rfl rfl⟩
  | waited hp hx he =>
    exact ⟨_, .waited hp hx he, by simpa using .kept (by simp) (by simp) (by simp)⟩
  | latched hi ha hp he =>
    refine ⟨_, .latched hi ha hp he, ?_⟩
    rw [State.consumeEvent_withRegs]
    exact .kept (by simp) (by simp) (by simp)
  | aborted hp hx he hu => exact ⟨_, .aborted hp hx he (hu.withRegs o st), .raised hu.out_eq⟩
  | overflowed hi hp => exact ⟨_, .overflowed hi hp, .raised rfl⟩
  | committed hc => exact ⟨_, .committed (hc.withRegs o st), .committed hc.out_eq hc⟩

end

/-- Settles O54: with the other registers the step has the same outcome, and its commit block treats each alike. -/
theorem commandsDoNotReadTheOutputRegisters : Obligations.CommandsDoNotReadTheOutputRegisters := by
  intro s t i o st h
  obtain ⟨u, hd, hu⟩ := (exec_cases h).withRegs o st
  refine ⟨u, exec_of_did hd, ?_⟩
  cases hu with
  | kept hout hst hp =>
    refine ⟨rfl, fun hb ht => ?_, .inr ⟨hst, rfl⟩, hout ▸ DataRegs.alikeOrKept_self s.out o⟩
    simp [hp, hb] at ht
  | raised hv => exact ⟨rfl, fun _ _ => rfl, .inl rfl, hv ▸ DataRegs.alikeOrKept_self s.out o⟩
  | committed hv hc => exact ⟨rfl, fun _ _ => rfl, .inl rfl, hv ▸ hc.alikeOrKept s.out o⟩

end Sys2Proof.Machine
end

section
/-! PROOFS. The address space and the bus: which transactions a command issues, in which bytes a value travels,
and what a read returns (20_memory.md R50 to R55, R63). -/

namespace Sys2Proof.Machine

/-! ### Bytes on the wire (R53) -/

theorem toNat_joinBytes (b0 b1 : Byte) : (joinBytes b0 b1).toNat = 256 * b0.toNat + b1.toNat := by
  rw [joinBytes, BitVec.toNat_append, ← Nat.shiftLeft_add_eq_or_of_lt b1.isLt, Nat.shiftLeft_eq,
    Nat.mul_comm]

theorem toNat_highByte (v : Half) : (highByte v).toNat = v.toNat / 256 := by
  rw [highByte_eq, BitVec.extractLsb'_toNat, Nat.shiftRight_eq_div_pow]
  exact Nat.mod_eq_of_lt (Nat.div_lt_of_lt_mul v.isLt)

theorem toNat_lowByte (v : Half) : (lowByte v).toNat = v.toNat % 256 := by
  rw [lowByte_eq, BitVec.extractLsb'_toNat, Nat.shiftRight_zero]

section
variable {s t : State} {i : Instr} {x : Transaction} {reg b0 b1 : Byte}

/-! ### Which transactions a command issues (R51) -/

theorem Aborted.pend_eq (h : Aborted s x t) : t.pend = none := by cases h <;> simp

theorem Committed.pend_cases {c : DataRegs → DataRegs} (h : Committed s i t c) :
    t.pend = none ∨ t.pend = s.pend := by
  rcases h.state_cases with ⟨-, rfl⟩ | rfl | ⟨_, _, -, rfl⟩ <;> simp

/-- An engine step leaves `PEND` as it is, empties it, or fills it with a transaction of the command's row. -/
theorem Did.pend_cases (h : Did i s t) :
    t.pend = none ∨ t.pend = s.pend ∨ ∃ x ∈ transactionsOf s.dev i, t.pend = some x := by
  cases h with
  | issued _ hx => exact .inr (.inr ⟨_, List.mem_of_head? hx, rfl⟩)
  | latched hi ha =>
    subst hi
    exact .inr (.inr ⟨_, by simp [transactionsOf_readChannelAdc _ ha], rfl⟩)
  | waited => exact .inr (.inl (State.consumeEvent_pend s))
  | overflowed => exact .inr (.inl rfl)
  | aborted _ _ _ hu => exact .inl hu.pend_eq
  | committed hc => exact hc.pend_cases.imp_right .inl

/-- With nothing outstanding, a command that has a transaction issues its first one, and nothing else happens. -/
theorem exec_issues (hp : s.pend = none) (hx : (transactionsOf s.dev i).head? = some x) :
    exec i s = .next { s with pend := some x } :=
  exec_of_did (.issued hp hx)

/-! ### What a read returns (R52, R55) -/

theorem State.readValue_unconstrained (h : s.params.deviceModel = .unconstrained) :
    s.readValue reg b0 b1 = joinBytes b0 b1 := by
  simp only [readValue, h]

theorem State.readValue_loopback (h : s.params.deviceModel = .loopback) :
    s.readValue reg b0 b1 = (s.devreg.read reg.toNat).getD (joinBytes b0 b1) := by
  simp only [readValue, h]

/-! ### Waiting for a command (R63) -/

/-- An engine that goes on while IDLE does nothing. -/
theorem step_idle (hp : paramRefusal s.params = none) (ht : s.hostTurn = .engine t)
    (hi : t.phase = .idle) : step s = .next t := by
  simp only [step, hp, ht, State.work, hi]

end

/-- Settles O32: of the outcomes of an engine step only two fill `PEND`, each from the command's row. -/
theorem commandsIssueOnlyTheirTransactions : Obligations.CommandsIssueOnlyTheirTransactions :=
  fun _ _ _ h => (exec_cases h).pend_cases

/-- Settles O13: a host with nothing to do leaves the step to the engine, which has no command. -/
theorem idleEngineWaits : Obligations.IdleEngineWaits := by
  intro s hl hp hh
  have ht : s.hostTurn = .engine s := by simp only [State.hostTurn, hh]
  exact step_idle (paramRefusal_none hl) ht hp

/-- Settles O14: the read is the first transaction of each command's row. -/
theorem readingCommandsIssueTheirRead : Obligations.ReadingCommandsIssueTheirRead := by
  refine fun s reg hp => ⟨?_, ?_, ?_, ?_, fun ha => ?_⟩
  · exact exec_issues hp rfl
  · exact exec_issues hp rfl
  · exact exec_issues hp rfl
  · exact exec_issues hp rfl
  · exact exec_issues hp (by rw [transactionsOf_readChannelAdc _ ha, List.head?_cons])

/-- Settles O15: the write is the one transaction of each command's row, and its first byte is the high one. -/
theorem writingCommandsIssueTheirWriteHighByteFirst :
    Obligations.WritingCommandsIssueTheirWriteHighByteFirst := by
  refine fun s reg v hp => ⟨⟨highByte v, lowByte v, toNat_highByte v, toNat_lowByte v, ?_⟩, ?_, ?_⟩
  · exact exec_issues hp (congrArg some (writeOf_eq _ _ _))
  · exact exec_issues hp rfl
  · exact exec_issues hp rfl

/-- Settles O16: the two bytes are joined, unless the loopback device holds a value at the offset. -/
theorem readValueFollowsTheDeviceModel : Obligations.ReadValueFollowsTheDeviceModel := by
  refine fun s reg b0 b1 => ⟨fun hm => ?_, fun hm v hv => ?_, fun hm hv => ?_⟩
  · rw [State.readValue_unconstrained hm, toNat_joinBytes]
  · rw [State.readValue_loopback hm, hv, Option.getD_some]
  · rw [State.readValue_loopback hm, hv, Option.getD_none, toNat_joinBytes]

end Sys2Proof.Machine
end

section
/-! PROOFS. The decoder, the encoder, and the table of match and mask: a word is a legal command's exactly when its
`OP` is that of a row and the fields the row reserves are zero (30_encoding.md R80 to R87). -/

namespace Sys2Proof

/-! ### Decoding by rows (R83, R84) -/

/-- A word is legal for a row: its `OP` is the row's, and the fields that the row reserves are zero. -/
def Mnemonic.Legal (m : Mnemonic) (w : CmdWord) : Prop :=
  (CmdWord.toCmd w).op = m.op ∧ (CmdWord.toCmd w).reservedZero m = true

theorem decode_of_legal {m : Mnemonic} {w : CmdWord} (h : m.Legal w) :
    decode w = some (m.build (CmdWord.toCmd w)) := by
  obtain ⟨hop, hr⟩ := h
  simp [decode, Cmd.decode, hop, hr]

theorem decode_eq_some_iff {w : CmdWord} {i : Instr} :
    decode w = some i ↔ ∃ m : Mnemonic, m.Legal w ∧ m.build (CmdWord.toCmd w) = i := by
  constructor
  · intro h
    obtain ⟨m, hop, hr, hb⟩ := decode_eq_some h
    exact ⟨m, ⟨hop.symm, hr⟩, hb⟩
  · rintro ⟨m, hm, rfl⟩
    exact decode_of_legal hm

/-- The `OP` column names a row once (R84). -/
theorem Mnemonic.op_injective : Function.Injective Mnemonic.op := fun m n h =>
  Option.some.inj (by rw [← ofOp_op m, h, ofOp_op])

theorem encodedFields (i : Instr) : Laws.EncodedFields.Statement i := by
  cases i with
  | read16 => exact Laws.EncodedFields.read16 _
  | write16 => exact Laws.EncodedFields.write16 _ _
  | readDeviceId => exact Laws.EncodedFields.readDeviceId
  | writeConfig0 => exact Laws.EncodedFields.writeConfig0
  | writeConfig1 => exact Laws.EncodedFields.writeConfig1
  | readChannelAdc => exact Laws.EncodedFields.readChannelAdc _
  | readLuxFixed => exact Laws.EncodedFields.readLuxFixed _
  | readLuxFloat => exact Laws.EncodedFields.readLuxFloat _
  | decodePair => exact Laws.EncodedFields.decodePair _ _
  | decodeLux => exact Laws.EncodedFields.decodeLux _

@[simp] theorem decode_encode (i : Instr) : decode (encode i) = some i := by
  obtain ⟨-, hop, hr, hb⟩ := encodedFields i
  exact decode_eq_some_iff.mpr ⟨i.mnemonic, ⟨hop, hr⟩, hb⟩

/-- The operands taken from the fields, and zeros in the reserved ones, are all the fields. -/
theorem toCmd_build {m : Mnemonic} {c : Cmd} (hop : c.op = m.op) (hr : c.reservedZero m = true) :
    (m.build c).toCmd = c := by
  obtain ⟨op, reg, d0, d1⟩ := c
  cases hop
  cases m <;> simp_all [Cmd.reservedZero, Mnemonic.uses, Mnemonic.build, Instr.toCmd]

theorem encode_of_decode {w : CmdWord} {i : Instr} (h : decode w = some i) : encode i = w := by
  obtain ⟨m, ⟨hop, hr⟩, rfl⟩ := decode_eq_some_iff.mp h
  rw [encode, toCmd_build hop hr, toWord_toCmd]

/-- Settles O1: the word's fields are those of the command's row, and give the operands back. -/
theorem decodeOfEncodeIsTheCommand : Obligations.DecodeOfEncodeIsTheCommand :=
  fun i _ => decode_encode i

/-- Settles O2: a legal word holds the operands and zeros, so its fields are the command's. -/
theorem legalWordIsTheEncodingOfItsCommand : Obligations.LegalWordIsTheEncodingOfItsCommand :=
  fun _ _ => encode_of_decode

/-! ### Match and mask (R85) -/

/-- The fields of a row's mask: `OP`, and every field the row reserves. -/
def Mnemonic.maskCmd (m : Mnemonic) : Cmd where
  op := BitVec.allOnes 8
  reg := if m.uses.reg then 0 else BitVec.allOnes 8
  d0 := if m.uses.d0 then 0 else BitVec.allOnes 16
  d1 := if m.uses.d1 then 0 else BitVec.allOnes 16

theorem Mnemonic.toCmd_maskBits (m : Mnemonic) : CmdWord.toCmd m.maskBits = m.maskCmd := by
  cases m <;> rfl

theorem Mnemonic.toCmd_matchBits (m : Mnemonic) : CmdWord.toCmd m.matchBits = ⟨m.op, 0, 0, 0⟩ := by
  cases m <;> rfl

theorem toCmd_injective : Function.Injective CmdWord.toCmd :=
  Function.LeftInverse.injective toWord_toCmd

theorem toCmd_and (w v : CmdWord) : CmdWord.toCmd (w &&& v) =
    { op := (CmdWord.toCmd w).op &&& (CmdWord.toCmd v).op
      reg := (CmdWord.toCmd w).reg &&& (CmdWord.toCmd v).reg
      d0 := (CmdWord.toCmd w).d0 &&& (CmdWord.toCmd v).d0
      d1 := (CmdWord.toCmd w).d1 &&& (CmdWord.toCmd v).d1 } := by
  simp only [CmdWord.toCmd, BitVec.extractLsb'_and]

/-- A field under its mask is zero exactly when it is used, and not masked, or is zero itself. -/
theorem and_fieldMask_eq_zero {n : Nat} (used : Bool) (x : BitVec n) :
    x &&& (if used then 0 else BitVec.allOnes n) = 0 ↔ (used || decide (x = 0)) = true := by
  cases used <;> simp

theorem Mnemonic.selects_iff_legal {m : Mnemonic} {w : CmdWord} : m.selects w ↔ m.Legal w := by
  rw [Mnemonic.selects, ← toCmd_injective.eq_iff, toCmd_and, m.toCmd_maskBits, m.toCmd_matchBits,
    Cmd.mk.injEq, maskCmd, BitVec.and_allOnes, and_fieldMask_eq_zero, and_fieldMask_eq_zero,
    and_fieldMask_eq_zero, Legal, Cmd.reservedZero, Bool.and_eq_true, Bool.and_eq_true, and_assoc]

/-- Settles O3: to be selected by a row's match and mask is to be legal for the row. -/
theorem decoderAgreesWithMatchAndMask : Obligations.DecoderAgreesWithMatchAndMask := by
  refine ⟨fun w m => ?_, fun w m n hm hn => ?_⟩
  · rw [Mnemonic.selects_iff_legal]
    constructor
    · exact fun hm => ⟨_, decode_of_legal hm, mnemonic_build _ _⟩
    · rintro ⟨i, hi, rfl⟩
      obtain ⟨m, hm, rfl⟩ := decode_eq_some_iff.mp hi
      rwa [mnemonic_build]
  · obtain ⟨hm, -⟩ := Mnemonic.selects_iff_legal.mp hm
    obtain ⟨hn, -⟩ := Mnemonic.selects_iff_legal.mp hn
    exact Mnemonic.op_injective (hm.symm.trans hn)

/-! ### Illegal words (R83, R86, R87) -/

theorem wellFormed_of_op {m : Mnemonic} {c : Cmd} (h : c.op = m.op) :
    c.wellFormed = c.reservedZero m := by
  cases m <;> simp [Cmd.wellFormed, h, Mnemonic.op, Cmd.reservedZero, Mnemonic.uses]

theorem exists_op_of_wellFormed {c : Cmd} (h : c.wellFormed = true) : ∃ m : Mnemonic, c.op = m.op := by
  by_contra hn
  have hne : ∀ m ∈ Mnemonic.all, c.op ≠ m.op := fun m _ hm => hn ⟨m, hm⟩
  simp [Mnemonic.all, Mnemonic.op] at hne
  simp [Cmd.wellFormed, hne] at h

theorem wellFormed_iff {w : CmdWord} :
    (CmdWord.toCmd w).wellFormed = true ↔ ∃ m : Mnemonic, m.Legal w := by
  constructor
  · intro h
    obtain ⟨m, hm⟩ := exists_op_of_wellFormed h
    exact ⟨m, hm, wellFormed_of_op hm ▸ h⟩
  · rintro ⟨m, hm, hr⟩
    rw [wellFormed_of_op hm, hr]

theorem decode_eq_none_iff {w : CmdWord} : decode w = none ↔ ∀ m : Mnemonic, ¬ m.Legal w := by
  rw [Option.eq_none_iff_forall_ne_some]
  constructor
  · exact fun h m hm => h _ (decode_of_legal hm)
  · intro h i hi
    obtain ⟨m, hm, -⟩ := decode_eq_some_iff.mp hi
    exact h m hm

/-- The defined operation codes are `0x01` to `0x0A` (R84). -/
theorem Mnemonic.op_range (m : Mnemonic) : m.op ≠ 0x00 ∧ m.op < 0x0B := by cases m <;> decide

/-- Settles O4: both say that the word is legal for no row, and no row has the `OP`s of the second clause. -/
theorem illegalWordsAreTheUndefinedAndTheReserved :
    Obligations.IllegalWordsAreTheUndefinedAndTheReserved := by
  refine ⟨fun w => ?_, fun w hop => ?_⟩
  · rw [decode_eq_none_iff, ← Bool.not_eq_true, wellFormed_iff, not_exists]
  · rw [decode_eq_none_iff]
    rintro m ⟨hm, -⟩
    obtain ⟨h0, hlt⟩ := m.op_range
    rw [hm] at hop
    rcases hop with h | h
    · exact h0 h
    · exact absurd hlt (BitVec.not_lt.mpr h)

/-! ### Where the fields are (R80) -/

/-- A part of a part of a vector is a part of the vector. -/
theorem extractLsb'_extractLsb' {w n m : Nat} (x : BitVec w) (i j : Nat) (h : j + m ≤ n) :
    (x.extractLsb' i n).extractLsb' j m = x.extractLsb' (i + j) m := by
  apply BitVec.eq_of_getLsbD_eq
  intro k hk
  simp only [BitVec.getLsbD_extractLsb', show j + k < n by omega, decide_true, Bool.true_and,
    Nat.add_assoc]

/-- The bytes of a listing are the fields, each of the two data operands with its high byte first. -/
theorem toBytes_eq (w : CmdWord) :
    w.toBytes = [(CmdWord.toCmd w).op, (CmdWord.toCmd w).reg,
      (CmdWord.toCmd w).d0.extractLsb' 8 8, (CmdWord.toCmd w).d0.extractLsb' 0 8,
      (CmdWord.toCmd w).d1.extractLsb' 8 8, (CmdWord.toCmd w).d1.extractLsb' 0 8] := by
  simp only [CmdWord.toBytes, CmdWord.toCmd, extractLsb'_extractLsb', Nat.reduceAdd, Nat.reduceLeDiff]

theorem wordOfBytes_eq (b5 b4 b3 b2 b1 b0 : Byte) :
    wordOfBytes [b5, b4, b3, b2, b1, b0] = some (Cmd.toWord ⟨b5, b4, b3 ++ b2, b1 ++ b0⟩) := by
  refine congrArg some (BitVec.eq_of_toNat_eq ?_)
  simp only [Cmd.toWord, BitVec.toNat_append, Nat.shiftLeft_or_distrib, ← Nat.shiftLeft_add,
    Nat.or_assoc]

/-- Settles O5: the word of a listing is built from fields whose data operands join two bytes each. -/
theorem commandFieldsAreWhereTheFormatPutsThem : Obligations.CommandFieldsAreWhereTheFormatPutsThem := by
  refine ⟨fun w => ?_, fun b5 b4 b3 b2 b1 b0 => ⟨_, wordOfBytes_eq .., toCmd_toWord _, ?_⟩⟩
  · have hop : w.toNat / 2 ^ 40 < 2 ^ 8 := by omega
    simpa [CmdWord.toCmd, Nat.shiftRight_eq_div_pow] using hop
  · rw [toBytes_eq, toCmd_toWord]
    simp only [BitVec.extractLsb'_append_eq_left, BitVec.extractLsb'_append_eq_right]

end Sys2Proof
end

section
/-! PROOFS. The command cycle: what the host leaves to the engine, the word taken from the port, a command that runs
or waits, and a machine that goes on for ever (30_encoding.md R90 to R94; 10_state.md R23). -/

namespace Sys2Proof.Machine

/-! ### What the host leaves to the engine (R23, R90) -/

namespace State

variable {s : State} {w : CmdWord} {rest : List HostAction}

theorem hostTurn_nil (hh : s.host = []) : s.hostTurn = .engine s := by
  simp only [hostTurn, hh]

theorem hostTurn_pause (hh : s.host = .pause :: rest) :
    s.hostTurn = .engine { s with host := rest } := by
  simp only [hostTurn, hh]

theorem hostTurn_awaitIdle_of_busy (hh : s.host = .awaitIdle :: rest) (hb : s.phase = .busy) :
    s.hostTurn = .engine s := by
  simp only [hostTurn, hh, hb]

theorem hostTurn_offer_of_busy (hh : s.host = .offer w :: rest) (hb : s.phase = .busy) :
    s.hostTurn = .engine s := by
  simp only [hostTurn, hh, hb]

theorem hostTurn_offer_of_idle (hh : s.host = .offer w :: rest) (hp : s.phase = .idle) :
    s.hostTurn = .taken { s.accept w with host := rest } := by
  simp only [hostTurn, hh, hp]

end State

theorem step_taken {s t : State} (hl : s.ParamsLegal) (ht : s.hostTurn = .taken t) :
    step s = .next t := by
  simp only [step, paramRefusal_none hl, ht]

/-- The engine completes an illegal word (R202). -/
theorem step_illegal {s u : State} (hp : paramRefusal s.params = none) (ht : s.hostTurn = .engine u)
    (hb : u.phase = .busy) (hd : decode u.cur = none) :
    step s = .next (u.raise .illegalCommand) := by
  simp only [step, hp, ht, State.work, hb, hd]

/-- Settles O7: none of these hosts takes the step, so the engine makes it, from a state that still holds the
command. -/
theorem stepRunsTheDecodedCommand : Obligations.StepRunsTheDecodedCommand := by
  refine ⟨fun s i hl hb hd => ⟨fun hh => ?_, fun rest hh => ?_, fun w rest hh => ?_, fun rest hh => ?_⟩,
    fun s w i hl hd => ?_⟩
  · exact step_run (paramRefusal_none hl) (State.hostTurn_nil hh) hb hd
  · exact step_run (paramRefusal_none hl) (State.hostTurn_pause hh) hb hd
  · exact step_run (paramRefusal_none hl) (State.hostTurn_offer_of_busy hh hb) hb hd
  · exact step_run (paramRefusal_none hl) (State.hostTurn_awaitIdle_of_busy hh hb) hb hd
  · have hw : decode (tableWord 48 w) = some i := hd
    exact step_run (paramRefusal_none hl) (State.hostTurn_nil rfl) rfl hw

/-! ### `STATUS`, and the word taken from the port (R25, R90) -/

/-- The `BUSY` bit is the only one that `PHASE` decides (R25, R28). -/
theorem State.statusWord_with_busy (s : State) :
    statusWord { s with phase := .busy } = s.statusWord ||| 0x0040 := by
  have hm : (0x0040 : BitVec 16) = BitVec.twoPow 16 6 := rfl
  apply BitVec.eq_of_getLsbD_eq
  intro k hk
  rw [hm, BitVec.getLsbD_or, getLsbD_statusWord, getLsbD_statusWord, BitVec.getLsbD_twoPow]
  by_cases h6 : k = 6
  · simp [h6, busy]
  · have hk6 : k < 7 ↔ k < 6 := by omega
    simp +contextual [hk6, Ne.symm h6]

/-- `STATUS` after a success: LASTOP, and of the other fields only VALID (R25, R27). -/
theorem State.statusWord_complete (c : DataRegs → DataRegs) (s : State) :
    (s.complete c).statusWord = (CmdWord.toCmd s.cur).op ++ 0x01#8 := by
  have h : ∀ op : Byte, op ++ 0#1 ++ 0#1 ++ 0#4 ++ 0#1 ++ 1#1 = op ++ 0x01#8 := by decide
  exact h _

/-- While BUSY with a word offered the engine keeps the command that it runs, and the port the word. -/
theorem step_offer_of_busy {s t : State} {w : CmdWord} {rest : List HostAction}
    (hb : s.phase = .busy) (hh : s.host = .offer w :: rest) (h : step s = .next t) :
    t.cur = s.cur ∧ t.host = s.host := by
  have hu := State.hostTurn_offer_of_busy hh hb
  obtain ⟨-, ht | ⟨u, ht, hc⟩⟩ := step_cases h <;> rw [hu] at ht <;> cases ht
  rcases hc with ⟨hp, -⟩ | ⟨-, i, -, he⟩ | ⟨-, -, rfl⟩
  · simp [hb] at hp
  · obtain ⟨-, -, hcur, hhost⟩ := (exec_cases he).sameSession
    exact ⟨hcur, hhost⟩
  · exact ⟨rfl, rfl⟩

/-- Settles O8: taking the word is the host's turn, and while BUSY the host leaves the step to the engine. -/
theorem acceptTakesTheOfferedWordOnlyWhileIdle : Obligations.AcceptTakesTheOfferedWordOnlyWhileIdle := by
  refine ⟨fun s w rest hl hp hh => ?_, fun s t w rest => step_offer_of_busy⟩
  refine ⟨_, step_taken hl (State.hostTurn_offer_of_idle hh hp), rfl, s.statusWord_with_busy, ?_⟩
  intro r hr
  cases r with
  | status => exact absurd rfl hr
  | _ => rfl

/-- Settles O29: waiting is one of the outcomes of an engine step. -/
theorem engineWaitsForTheBus : Obligations.EngineWaitsForTheBus :=
  fun _ _ _ hp hx he => exec_of_did (.waited hp hx he)

/-! ### A consistent machine goes on (R94, R208) -/

section
variable {s t u : State} {i : Instr} {x : Transaction} {n : Nat}

/-- A transaction of the command that returns with `Ok` lets the command go on. -/
theorem did_of_ok {b0 b1 : Byte} (hp : s.pend = some x) (hx : x ∈ transactionsOf s.dev i)
    (he : s.nextEvent = .ok b0 b1) : ∃ t, Did i s t := by
  have hone {y : Transaction} (h : transactionsOf s.dev i = [y]) : s.pend = some y := by
    rw [h, List.mem_singleton] at hx
    rw [hp, hx]
  cases i with
  | readChannelAdc a =>
    by_cases ha : a = 0xFF
    · simp [transactionsOf, ha] at hx
    · simp only [transactionsOf_readChannelAdc _ ha, List.mem_cons, List.not_mem_nil, or_false] at hx
      rcases hx with rfl | rfl
      · exact ⟨_, .latched rfl ha hp he⟩
      · exact ⟨_, .committed (.readChannelAdc ha hp he)⟩
  | decodePair | decodeLux => cases hx
  | read16 => exact ⟨_, .committed (.read16 (hone rfl) he)⟩
  | write16 => exact ⟨_, .committed (.write16 (hone rfl) he)⟩
  | readDeviceId => exact ⟨_, .committed (.readDeviceId (hone rfl) he)⟩
  | writeConfig0 => exact ⟨_, .committed (.writeConfig0 (hone rfl) he)⟩
  | writeConfig1 => exact ⟨_, .committed (.writeConfig1 (hone rfl) he)⟩
  | readLuxFixed => exact ⟨_, .committed (.readLuxFixed (hone rfl) he)⟩
  | readLuxFloat => exact ⟨_, .committed (.readLuxFloat (hone rfl) he)⟩

theorem exists_aborted (s : State) (x : Transaction) : ∃ u, Aborted s x u := by
  cases x with
  | read => exact ⟨_, .read⟩
  | write => exact ⟨_, .write⟩

/-- However the bus agent answers a transaction of the command, the engine makes a step. -/
theorem did_of_pending (hp : s.pend = some x) (hx : x ∈ transactionsOf s.dev i) : ∃ t, Did i s t := by
  obtain ⟨u, hu⟩ := exists_aborted s x
  cases he : s.nextEvent with
  | silent => exact ⟨_, .waited hp hx he⟩
  | ok b0 b1 => exact did_of_ok hp hx he
  | short y => exact ⟨_, .aborted hp hx (.inl ⟨y, he⟩) hu⟩
  | fail => exact ⟨_, .aborted hp hx (.inr he) hu⟩

/-- With nothing outstanding the engine makes a step of any command. -/
theorem did_of_pend_none (hp : s.pend = none) : ∃ t, Did i s t := by
  cases hx : (transactionsOf s.dev i).head? with
  | some x => exact ⟨_, .issued hp hx⟩
  | none =>
    cases i with
    | readChannelAdc a =>
      by_cases ha : a = 0xFF
      · exact ⟨_, .overflowed (by rw [ha]) hp⟩
      · simp [transactionsOf_readChannelAdc _ ha] at hx
    | decodePair => exact ⟨_, .committed .decodePair⟩
    | decodeLux => exact ⟨_, .committed .decodeLux⟩
    | _ => cases hx

/-- The engine makes a step of the command in `CUR` where `PEND` is consistent. -/
theorem exec_next (hc : s.pendConsistent = true) (hd : decode s.cur = some i) :
    ∃ t, exec i s = .next t := by
  suffices ∃ t, Did i s t from this.imp fun _ => exec_of_did
  cases hp : s.pend with
  | none => exact did_of_pend_none hp
  | some x =>
    obtain ⟨-, j, hj, hx⟩ := State.pendConsistent_some hc hp
    cases hd.symm.trans hj
    exact did_of_pending hp hx

theorem State.Inv.step_next (h : s.Inv) : ∃ t, step s = .next t := by
  cases ht : s.hostTurn with
  | taken t => exact ⟨t, step_taken h.legal ht⟩
  | engine u =>
    obtain ⟨-, rest, rfl⟩ := State.hostTurn_engine ht
    have hl := paramRefusal_none h.legal
    rcases hb : s.phase with _ | _
    · exact ⟨_, step_idle hl ht hb⟩
    · rcases hd : decode s.cur with _ | i
      · exact ⟨_, step_illegal hl ht hb hd⟩
      · rw [step_run hl ht hb hd]
        exact exec_next (h.withHost rest).pend_ok hd

end

/-! ### Runs of several steps -/

section
variable {P : State → Prop} {s t u : State} {k n m : Nat}

theorem after_succ (h : step s = .next t) : Claims.after (n + 1) s = Claims.after n t := by
  have hc : core.step s = .next t := h
  simp only [Claims.after, Host.Core.run, hc]
  rfl

/-- Settles O53: every step from a consistent state answers a next one, which is consistent again. -/
theorem consistentMachineNeverStops : Obligations.ConsistentMachineNeverStops := by
  intro s h n
  induction n generalizing s with
  | zero => exact ⟨s, rfl⟩
  | succ n ih =>
    obtain ⟨t, ht⟩ := h.step_next
    obtain ⟨u, hu⟩ := ih t ((step_stepped ht).inv h)
    exact ⟨u, (after_succ ht).trans hu⟩

/-- A run of `n` steps from `s` to `t`, with `P` in every state before `t`. -/
inductive Along (P : State → Prop) : Nat → State → State → Prop where
  | done {s : State} : Along P 0 s s
  | cons {n : Nat} {s t u : State} (hs : P s) (h : step s = .next t) (ht : Along P n t u) :
      Along P (n + 1) s u

theorem Along.after_eq (h : Along P n s t) : Claims.after n s = .next t := by
  induction h with
  | done => rfl
  | cons _ h _ ih => exact (after_succ h).trans ih

theorem Along.before (h : Along P n s t) (hk : k < n) : ∃ u, Claims.after k s = .next u ∧ P u := by
  induction h generalizing k with
  | done => omega
  | cons hs h _ ih =>
    cases k with
    | zero => exact ⟨_, rfl, hs⟩
    | succ k =>
      obtain ⟨u, hu, hP⟩ := ih (Nat.lt_of_succ_lt_succ hk)
      exact ⟨u, (after_succ h).trans hu, hP⟩

theorem Along.trans (h : Along P n s t) (h' : Along P m t u) : Along P (m + n) s u := by
  induction h with
  | done => exact h'
  | cons hs h _ ih => exact .cons hs h (ih h')

theorem Along.snoc (h : Along P n s t) (ht : P t) (hu : step t = .next u) : Along P (n + 1) s u := by
  rw [Nat.add_comm]
  exact h.trans (.cons ht hu .done)

/-- The engine runs the command `i`, with a host that has nothing to do or holds an offer. -/
structure State.Runs (i : Instr) (s : State) : Prop where
  legal : s.ParamsLegal
  busy : s.phase = .busy
  decoded : decode s.cur = some i
  held : s.host = [] ∨ ∃ w rest, s.host = .offer w :: rest

theorem State.Runs.step_eq {i : Instr} (h : s.Runs i) : step s = exec i s := by
  refine step_run (paramRefusal_none h.legal) ?_ h.busy h.decoded
  rcases h.held with hh | ⟨w, rest, hh⟩
  · exact hostTurn_nil hh
  · exact hostTurn_offer_of_busy hh h.busy

/-- While its transaction does not return, a command waits, and the bus agent's answers are used
up one by one (R92). -/
theorem Along.wait {i : Instr} {x : Transaction} {as : List BusEvent} (h : s.Runs i)
    (hp : s.pend = some x) (hx : x ∈ transactionsOf s.dev i) (ha : s.answers = Claims.silence n ++ as)
    (hP : ∀ bs, P { s with answers := bs }) : Along P n s { s with answers := as } := by
  induction n generalizing s with
  | zero =>
    obtain rfl : s.answers = as := ha
    exact .done
  | succ n ih =>
    have ha' : s.answers = .silent :: (Claims.silence n ++ as) := ha
    have he : s.nextEvent = .silent := by rw [State.nextEvent, ha']
    have hc : s.consumeEvent = { s with answers := Claims.silence n ++ as } := by
      simp only [State.consumeEvent, ha']
    have hs : step s = .next { s with answers := Claims.silence n ++ as } := by
      rw [h.step_eq, exec_of_did (.waited hp hx he), hc]
    exact .cons (hP s.answers) hs (ih (s := { s with answers := _ }) { h with } hp hx rfl hP)

end

/-! ### A whole READ_CHANNEL_ADC (R140) -/

section

/-- READ_CHANNEL_ADC `a`, taken from the port in the state `s`, is reading the register at `reg`; `LATCH0` holds
`l`, and `as` are the answers to come. -/
def State.readingPair (s : State) (a : Byte) (l : Half) (reg : Byte) (as : List BusEvent) : State :=
  { s with
    phase := .busy
    cur := encode (.readChannelAdc a)
    host := []
    latch0 := l
    pend := some (.read s.dev reg)
    answers := as }

/-- The engine is BUSY, and the output registers are those of the state `s`. -/
def State.BusyShowing (s t : State) : Prop := t.out = s.out ∧ t.status = s.status ∧ t.phase = .busy

variable {s : State} {a b0 b1 : Byte} {f : Half} {reg : Byte} {n : Nat} {as : List BusEvent}

/-- Bits 11:0 of a register value (R120). -/
theorem low12_eq_extractLsb' (v : Half) : (v &&& 0x0FFF).setWidth 12 = v.extractLsb' 0 12 := by
  have hm : BitVec.extractLsb' 0 12 (0x0FFF : Half) = BitVec.allOnes 12 := rfl
  rw [BitVec.setWidth_eq_extractLsb' (by decide), BitVec.extractLsb'_and, hm, BitVec.and_allOnes]

/-- The mask `0x00FF` leaves bits 7:4 of a register value (R120). -/
theorem extractLsb'_counter_mask (v : Half) : (v &&& 0x00FF).extractLsb' 4 4 = v.extractLsb' 4 4 := by
  have hm : BitVec.extractLsb' 4 4 (0x00FF : Half) = BitVec.allOnes 4 := rfl
  rw [BitVec.extractLsb'_and, hm, BitVec.and_allOnes]

/-- The mantissa is `result_msb` before `result_lsb` (R123). -/
theorem mantissa_eq_append (x : BitVec 12) (y : Byte) :
    (x.setWidth 20 <<< 8) ||| y.setWidth 20 = x ++ y := by
  rw [← BitVec.setWidth_append_eq_shiftLeft_setWidth_or]
  exact BitVec.setWidth_eq (x ++ y)

/-- The registers that READ_CHANNEL_ADC commits, by the bits of the two values (R120, R123). -/
theorem commitPair_eq_pairRegs (f g : Half) (o : DataRegs) :
    commitPair f g o = Claims.pairRegs f g o := by
  simp only [commitPair, decodePair, low12_eq_extractLsb', extractLsb'_counter_mask, mantissa_eq_append,
    BitVec.setWidth_ushiftRight_eq_extractLsb, Nat.shiftLeft_eq, Claims.pairRegs]

theorem runs_readingPair (hl : s.ParamsLegal) : (s.readingPair a f reg as).Runs (.readChannelAdc a) :=
  ⟨hl, rfl, decode_encode _, .inl rfl⟩

theorem readValue_readingPair (hm : s.params.deviceModel = .unconstrained) (r : Byte) :
    (s.readingPair a f reg as).readValue r b0 b1 = b0 ++ b1 :=
  State.readValue_unconstrained hm

theorem along_readingPair (hl : s.ParamsLegal) (ha : a ≠ 0xFF) (hr : reg = a ∨ reg = a + 1) :
    Along s.BusyShowing n (s.readingPair a f reg (Claims.silence n ++ as))
      (s.readingPair a f reg as) := by
  refine Along.wait (runs_readingPair hl) rfl ?_ rfl fun _ => ⟨rfl, rfl, rfl⟩
  rcases hr with rfl | rfl <;> simp [transactionsOf_readChannelAdc _ ha, State.readingPair]

theorem step_readingPair_first (hl : s.ParamsLegal) (hm : s.params.deviceModel = .unconstrained)
    (ha : a ≠ 0xFF) : step (s.readingPair a f a (.ok b0 b1 :: as)) =
      .next (s.readingPair a (b0 ++ b1) (a + 1) as) := by
  rw [(runs_readingPair hl).step_eq, exec_of_did (.latched rfl ha rfl rfl),
    readValue_readingPair hm]
  rfl

theorem step_readingPair_second (hl : s.ParamsLegal) (hm : s.params.deviceModel = .unconstrained)
    (ha : a ≠ 0xFF) : step (s.readingPair a f (a + 1) (.ok b0 b1 :: as)) =
      .next ((s.readingPair a f (a + 1) as).retire.complete (commitPair f (b0 ++ b1))) := by
  rw [(runs_readingPair hl).step_eq, exec_of_did (.committed (.readChannelAdc ha rfl rfl)),
    readValue_readingPair hm]
  rfl

/-- The two reads, whatever time each takes, and the completion (R140). -/
theorem along_readPair {c0 c1 : Byte} {m : Nat} (hl : s.ParamsLegal)
    (hm : s.params.deviceModel = .unconstrained) (ha : a ≠ 0xFF) :
    Along s.BusyShowing (n + 1 + (m + 1))
      (s.readingPair a f a
        (Claims.silence m ++ .ok b0 b1 :: (Claims.silence n ++ .ok c0 c1 :: as)))
      ((s.readingPair a (b0 ++ b1) (a + 1) as).retire.complete (commitPair (b0 ++ b1) (c0 ++ c1))) :=
  Along.trans
    ((along_readingPair hl ha (.inl rfl)).snoc ⟨rfl, rfl, rfl⟩ (step_readingPair_first hl hm ha))
    ((along_readingPair hl ha (.inr rfl)).snoc ⟨rfl, rfl, rfl⟩ (step_readingPair_second hl hm ha))

/-- The word is taken, and then the first read is issued. -/
theorem step_offer_readChannelAdc (hl : s.ParamsLegal) (hp : s.phase = .idle) (hn : s.pend = none)
    (ha : a ≠ 0xFF) (hh : s.host = [.offer (encode (.readChannelAdc a))]) :
    ∃ u, step s = .next u ∧ s.BusyShowing u ∧
      step u = .next (s.readingPair a s.latch0 a s.answers) := by
  refine ⟨_, step_taken hl (State.hostTurn_offer_of_idle hh hp), ⟨rfl, rfl, rfl⟩, ?_⟩
  have hr : State.Runs (.readChannelAdc a) { s.accept (encode (.readChannelAdc a)) with host := [] } :=
    ⟨hl, rfl, decode_encode _, .inl rfl⟩
  exact hr.step_eq.trans (execReadChannelAdc_none ha hn)

end

/-- Settles O55: from the word taken to the completing step the engine is BUSY with the one read and then the
other, and it is the completing step that commits the pair. -/
theorem readChannelAdcFromOfferToCompletion : Obligations.ReadChannelAdcFromOfferToCompletion := by
  intro s a b0 b1 c0 c1 m n rest hl hm hp hn ha hh hans
  obtain ⟨u, htake, hu, hissue⟩ := step_offer_readChannelAdc hl hp hn ha hh
  have hbus : s.answers =
      Claims.silence m ++ .ok b0 b1 :: (Claims.silence n ++ .ok c0 c1 :: rest) := by simp [hans]
  rw [hbus] at hissue
  have hrun := Along.cons hu hissue (along_readPair hl hm ha)
  have hlen : 4 + m + n = n + 1 + (m + 1) + 1 + 1 := by omega
  rw [hlen]
  refine ⟨fun k hk => ?_, _, (after_succ htake).trans hrun.after_eq, rfl, rfl, ?_, ?_, rfl⟩
  · cases k with
    | zero => exact ⟨s, rfl, rfl, rfl, fun h => absurd h (Nat.lt_irrefl 0)⟩
    | succ k =>
      obtain ⟨t, ht, hout, hst, hb⟩ := hrun.before (Nat.lt_of_succ_lt_succ hk)
      exact ⟨t, (after_succ htake).trans ht, hout, hst, fun _ => hb⟩
  · have hop : (CmdWord.toCmd (encode (.readChannelAdc a))).op = 0x06 := op_of_decode (decode_encode _)
    exact (State.statusWord_complete _ _).trans (congrArg (· ++ 0x01#8) hop)
  · exact commitPair_eq_pairRegs _ _ _

end Sys2Proof.Machine
end

section
/-! PROOFS. The assembler: which lines it accepts, how it reads numerals and names, and the text of each form of line
(30_encoding.md R88, R89; 20_memory.md R60). -/

namespace Sys2Proof.Machine

/-! ### Fields and lines (R88, R89) -/

@[simp] theorem isSome_fitField (w n : Nat) : (fitField w n).isSome = decide (n < 2 ^ w) := by
  unfold fitField
  split <;> simp [*]

@[simp] theorem fitField_toNat {w : Nat} (x : BitVec w) : fitField w x.toNat = some x := by
  simp [fitField, x.isLt]

@[simp] theorem isSome_value (r : Imm8) : (Imm8.value r).isSome = r.wellFormed := by
  cases r with
  | num n => exact isSome_fitField 8 n
  | name r => rfl

theorem expandReadChannel_of_lt {c : Nat} (h : c < 4) :
    expandReadChannel c = some (.readChannelAdc (BitVec.ofNat 8 (2 * c))) := by
  revert c
  decide

theorem expandReadChannel_of_ge {c : Nat} (h : 4 ≤ c) : expandReadChannel c = none := by
  obtain ⟨k, rfl⟩ := Nat.exists_eq_add_of_le' h
  rfl

@[simp] theorem isSome_expandReadChannel (c : Nat) : (expandReadChannel c).isSome = decide (c < 4) := by
  rcases Nat.lt_or_ge c 4 with h | h
  · simp [expandReadChannel_of_lt h, h]
  · simp [expandReadChannel_of_ge h, h]

/-- Settles O59: the four channels one by one, and no other. -/
theorem pseudoCommandsExpand : Obligations.PseudoCommandsExpand := by
  refine ⟨fun c => expandReadChannel_of_lt, fun c hc => ?_, rfl, rfl⟩
  exact congrArg (fun e => (e.map fun i => [i]).map (List.map encode)) (expandReadChannel_of_ge hc)

/-- Two operands are accepted when each of them is. -/
theorem isSome_bind_map {α β γ : Type} (x : Option α) (y : Option β) (g : α → β → γ) :
    (x.bind fun a => y.map (g a)).isSome = (x.isSome && y.isSome) := by
  cases x <;> simp

/-- A line is refused exactly when one of its operands does not fit its field (R88). -/
theorem isSome_assemble (l : AsmLine) : (assemble l).isSome = l.wellFormed := by
  cases l <;> simp [assemble, commandsOf, isSome_bind_map, AsmLine.wellFormed]

/-- The words of a line of commands are those commands' words. -/
theorem assemble_of_commandsOf {l : AsmLine} {is : List Instr} (h : commandsOf l = some is) :
    assemble l = some (is.map encode) := by
  cases l with
  | word w => cases h
  | _ => exact congrArg (Option.map (List.map encode)) h

theorem assemble_word (w : CmdWord) : assemble (.word w.toNat) = some [w] := by
  simp [assemble]

/-! ### Numerals and names (R60, R88) -/

/-- Decimal digits are a numeral: `x` is no digit, so they cannot be taken for a hexadecimal one. -/
theorem numeral_of_digits {cs : List Char} {n : Nat} (h0 : cs ≠ []) (h : digits 10 0 cs = some n) :
    numeral cs = some n := by
  unfold numeral
  split
  · exact absurd rfl h0
  · cases h
  · simp [digits, hexDigit] at h
  · exact h

theorem numeral_toDigits_ten (n : Nat) : numeral (Nat.toDigits 10 n) = some n :=
  numeral_of_digits Nat.toDigits_ne_nil (digits_toDigits (by decide) (by decide) n)

theorem numeral_hex {ds : List Char} (h : ds ≠ []) : numeral ('0' :: 'x' :: ds) = digits 16 0 ds := by
  obtain ⟨c, cs, rfl⟩ := List.exists_cons_of_ne_nil h
  rfl

theorem numeral_toDigits_sixteen (n : Nat) : numeral ('0' :: 'x' :: Nat.toDigits 16 n) = some n :=
  (numeral_hex Nat.toDigits_ne_nil).trans (digits_toDigits (by decide) (by decide) n)

theorem imm8_of_numeral {cs : List Char} {n : Nat} (h : numeral cs = some n) :
    imm8 cs = some (.num n) := by
  simp only [imm8, h]

/-- The assembler's names are those of the table (R60). -/
theorem regNames_eq : regNames.map (fun p => (p.1, DevReg.offset p.2)) = Claims.namedOffsets := rfl

theorem imm8_of_no_name {a : String} (h : numeral a.toList = none)
    (hn : ∀ p ∈ Claims.namedOffsets, a ≠ p.1) : imm8 a.toList = none := by
  have hf : regNames.find? (fun p => p.1.toList = a.toList) = none := by
    rw [List.find?_eq_none]
    intro p hp he
    refine hn (p.1, DevReg.offset p.2) ?_ (String.toList_inj.mp (of_decide_eq_true he)).symm
    rw [← regNames_eq]
    exact List.mem_map_of_mem hp
  simp only [imm8, h, hf, Option.map_none]

theorem imm8_value_of_name :
    ∀ p ∈ Claims.namedOffsets, (imm8 p.1.toList).bind Imm8.value = some p.2 := by
  decide

/-! ### Lines of text (R88) -/

theorem plainText_of_operand {a : String} (h : Claims.Operand a) : PlainText a.toList := by
  intro c hc
  obtain ⟨h1, h2, h3, h4⟩ := h c hc
  exact ⟨by simp [isBlank, h1, h2], h3, h4⟩

/-- The word with which a text begins that is one word and a blank. -/
def firstWord (pre : String) : List Char := pre.toList.dropLast

/-- The text is one word and a blank: what stands before the operands of a line (log 18). -/
def opensLine (pre : String) : Bool :=
  pre.toList.getLast? = some ' ' && firstWord pre ≠ [] &&
    (firstWord pre).all fun c => !isBlank c && c != ',' && c != ';'

theorem firstWord_of_opensLine {pre : String} (h : opensLine pre = true) :
    pre.toList = firstWord pre ++ [' '] ∧ PlainText (firstWord pre) ∧ firstWord pre ≠ [] := by
  simp only [opensLine, Bool.and_eq_true, decide_eq_true_eq] at h
  obtain ⟨⟨hblank, h0⟩, hplain⟩ := h
  exact ⟨(List.dropLast_append_getLast? _ hblank).symm, plainText_of_all hplain, h0⟩

section
variable {α β : Type} {pre a b : String} {f : List Char → Option α} {g : List Char → Option β}

/-- The text of a line with one operand, where `f` reads the operand and `mk` makes the line. -/
theorem assembleText_form_one {mk : α → AsmLine} (hpre : opensLine pre = true)
    (hl : ∀ cs, lineOf (firstWord pre) [cs] = (f cs).map mk) (hnil : lineOf (firstWord pre) [] = none)
    (hf : f [] = none) (ha : Claims.Operand a) :
    assembleText (pre ++ a) = (f a.toList).bind fun x => assemble (mk x) := by
  obtain ⟨ht, hw, h0⟩ := firstWord_of_opensLine hpre
  have hline : (pre ++ a).toList = firstWord pre ++ ' ' :: a.toList := by simp [ht]
  rw [assembleText_one_operand hline hw h0 (plainText_of_operand ha)]
  by_cases h : a.toList = []
  · simp [h, hnil, hf]
  · rw [if_neg h, hl, Option.bind_map]
    rfl

/-- The text of a line with two operands, which `f` and `g` read. -/
theorem assembleText_form_two {mk : α → β → AsmLine} (hpre : opensLine pre = true)
    (hl : ∀ cs ds, lineOf (firstWord pre) [cs, ds] = (f cs).bind fun x => (g ds).map (mk x))
    (ha : Claims.Operand a) (hb : Claims.Operand b) :
    assembleText (pre ++ a ++ ", " ++ b) =
      (f a.toList).bind fun x => (g b.toList).bind fun y => assemble (mk x y) := by
  obtain ⟨ht, hw, h0⟩ := firstWord_of_opensLine hpre
  have hline : (pre ++ a ++ ", " ++ b).toList =
      firstWord pre ++ ' ' :: (a.toList ++ ',' :: ' ' :: b.toList) := by simp [ht]
  rw [assembleText_two_operands hline hw h0 (plainText_of_operand ha) (plainText_of_operand hb), hl]
  simp only [Option.bind_assoc, Option.bind_map, Function.comp_def]

end

/-- Settles O60: lines are accepted by their operands, operands are read as numerals or names, and the text of each
form of line is cut into its word and its operands. -/
theorem assemblerAcceptsExactlyWellFormedLines : Obligations.AssemblerAcceptsExactlyWellFormedLines := by
  refine ⟨isSome_assemble, fun l is h => ⟨_, assemble_of_commandsOf h, by simp⟩, assemble_word,
    fun n => ⟨numeral_toDigits_ten n, numeral_toDigits_sixteen n⟩, fun cs n => imm8_of_numeral,
    imm8_value_of_name, fun a => imm8_of_no_name, fun a ha => ⟨?_, ?_, ?_, ?_, ?_, ?_, ?_⟩,
    fun a b ha hb => ⟨?_, ?_⟩, by decide, by decide, by decide, by decide, by decide, assembleText_comment⟩
  · exact assembleText_form_one (pre := "READ16 ") rfl (fun _ => rfl) rfl rfl ha
  · exact assembleText_form_one (pre := "READ_CHANNEL_ADC ") rfl (fun _ => rfl) rfl rfl ha
  · exact assembleText_form_one (pre := "READ_LUX_FIXED ") rfl (fun _ => rfl) rfl rfl ha
  · exact assembleText_form_one (pre := "READ_LUX_FLOAT ") rfl (fun _ => rfl) rfl rfl ha
  · exact assembleText_form_one (pre := "DECODE_LUX ") rfl (fun _ => rfl) rfl rfl ha
  · exact assembleText_form_one (pre := "READ_CHANNEL ") rfl (fun _ => rfl) rfl rfl ha
  · exact assembleText_form_one (pre := ".word ") rfl (fun _ => rfl) rfl rfl ha
  · exact assembleText_form_two (pre := "WRITE16 ") rfl (fun _ _ => rfl) ha hb
  · exact assembleText_form_two (pre := "DECODE_PAIR ") rfl (fun _ _ => rfl) ha hb

end Sys2Proof.Machine
end

section
/-! PROOFS. The Bus Transport commands: how a command with one transaction completes, whole from the offer to its
completion, and the round trip through the loopback device (40_bus_transport.md R100, R104, R108). -/

namespace Sys2Proof.Machine

/-! ### What a stored value leaves in the device (R38, R52) -/

section
variable {s : State} {reg : Byte} {v : Half}

theorem State.deviceStore_read_same (h : s.params.deviceModel = .loopback) :
    (s.deviceStore reg v).devreg.read reg.toNat = some v := by
  simp only [deviceStore, h, Memory.read_put_same]

theorem State.deviceStore_unconstrained (h : s.params.deviceModel = .unconstrained) :
    s.deviceStore reg v = s := by
  simp only [deviceStore, h]

theorem State.deviceStore_eq_withDevreg (s : State) (reg : Byte) (v : Half) :
    s.deviceStore reg v = { s with devreg := (s.deviceStore reg v).devreg } := by
  unfold deviceStore
  split <;> rfl

end

/-! ### The completing step (R93) -/

section
variable {s u : State} {i : Instr} {c : DataRegs → DataRegs} {reg : Byte} {v : Half}

/-- The completing step, with the registers of the state in which the command is made and the `OP` of its row. -/
theorem Committed.exec_eq (hc : Committed s i u c) (hd : decode s.cur = some i) :
    exec i s = .next
      { u with out := c s.out, status := Status.success i.mnemonic.op, phase := .idle } := by
  obtain ⟨-, -, hcur, -⟩ := hc.sameSession
  rw [exec_of_did (.committed hc), State.complete, hc.out_eq, hcur, op_of_decode hd]

/-- A command that completes with a write stores the value in the loopback device, and writes `STATUS` alone of the
output registers (R38, R104). -/
theorem Committed.exec_write
    (hc : Committed s i (s.consumeEvent.retire.deviceStore reg v) commitNothing)
    (hd : decode s.cur = some i) :
    ∃ t, exec i s = .next t ∧
      t = { s.consumeEvent with
            pend := none
            status := Status.success i.mnemonic.op
            phase := .idle
            devreg := t.devreg } ∧
      (s.params.deviceModel = .loopback → t.devreg.read reg.toNat = some v) ∧
      (s.params.deviceModel = .unconstrained → t.devreg = s.devreg) ∧
      ∀ a : Nat, a ≠ reg.toNat → t.devreg.read a = s.devreg.read a := by
  refine ⟨_, hc.exec_eq hd, ?_, fun hm => ?_, fun hm => ?_, fun a ha => ?_⟩
  · rw [State.deviceStore_eq_withDevreg]
    simp [State.retire, commitNothing]
  · exact State.deviceStore_read_same (by simpa using hm)
  · rw [State.deviceStore_unconstrained (by simpa using hm)]
    simp
  · simpa using State.deviceStore_read_other (s := s.consumeEvent.retire) a ha

end

/-- Settles O17: the value read is what the commit block of READ16 writes. -/
theorem read16Completes : Obligations.Read16Completes :=
  fun _ _ _ _ hd hp he => (Committed.read16 hp he).exec_eq hd

/-- Settles O19: WRITE16 completes with a write, and its commit block is empty. -/
theorem write16Completes : Obligations.Write16Completes :=
  fun _ _ _ _ _ hd hp he => (Committed.write16 hp he).exec_write hd

/-! ### A whole command with one transaction (R90 to R93) -/

/-- The engine is IDLE and the word of `i` stands at the port; `hs` is what the host will do then: nothing, or hold
another offer. -/
structure State.Offered (i : Instr) (hs : List HostAction) (s : State) : Prop where
  legal : s.ParamsLegal
  idle : s.phase = .idle
  pend_none : s.pend = none
  offered : s.host = .offer (encode i) :: hs
  held : hs = [] ∨ ∃ w rest, hs = .offer w :: rest

/-- The command `i`, taken from the port in the state `s`, has the transaction `x` outstanding; `hs` is what the host
will do, and `as` are the answers to come. -/
def State.transacting (s : State) (i : Instr) (x : Transaction) (hs : List HostAction)
    (as : List BusEvent) : State :=
  { s with
    phase := .busy
    cur := encode i
    host := hs
    pend := some x
    answers := as }

section
variable {s u : State} {i : Instr} {x : Transaction} {hs : List HostAction} {as : List BusEvent}
  {c : DataRegs → DataRegs} {n : Nat} {b0 b1 reg : Byte} {v : Half}

theorem State.Offered.runs_accept (h : s.Offered i hs) :
    State.Runs i { s.accept (encode i) with host := hs } :=
  ⟨h.legal, rfl, decode_encode i, h.held⟩

theorem State.Offered.runs_transacting (h : s.Offered i hs) : (s.transacting i x hs as).Runs i :=
  ⟨h.legal, rfl, decode_encode i, h.held⟩

/-- The word is taken, and then the transaction is issued. -/
theorem State.Offered.along_issue (h : s.Offered i hs) (hx : transactionsOf s.dev i = [x]) :
    Along (fun _ => True) 2 s (s.transacting i x hs s.answers) :=
  .cons trivial (step_taken h.legal (hostTurn_offer_of_idle h.offered h.idle)) <|
    .cons trivial (h.runs_accept.step_eq.trans (exec_issues h.pend_none (congrArg List.head? hx))) .done

/-- The word is taken, the transaction is issued, it returns after any time, and the command completes. -/
theorem State.Offered.along_complete (h : s.Offered i hs) (hx : transactionsOf s.dev i = [x])
    (ha : s.answers = Claims.silence n ++ as) (hc : Committed (s.transacting i x hs as) i u c) :
    Along (fun _ => True) (n + 3) s (u.complete c) := by
  have hwait : Along (fun _ => True) n (s.transacting i x hs s.answers) (s.transacting i x hs as) :=
    Along.wait h.runs_transacting rfl (hx ▸ List.mem_singleton_self x) ha fun _ => trivial
  have hdone : step (s.transacting i x hs as) = .next (u.complete c) :=
    h.runs_transacting.step_eq.trans (exec_of_did (.committed hc))
  exact ((h.along_issue hx).trans hwait).snoc trivial hdone

/-- A whole WRITE16 that ends with `Ok`: the engine is ready for the next command, the loopback device holds the
value, and the data registers are as they were (R104, R106). -/
theorem State.Offered.along_write16 (h : s.Offered (.write16 reg v) hs)
    (ha : s.answers = Claims.silence n ++ .ok b0 b1 :: as) :
    ∃ t, Along (fun _ => True) (n + 3) s t ∧ t.phase = .idle ∧ t.pend = none ∧ t.host = hs ∧
      t.answers = as ∧ t.params = s.params ∧ t.out = s.out ∧
      (s.params.deviceModel = .loopback → t.devreg.read reg.toNat = some v) := by
  refine ⟨_, h.along_complete rfl ha (.write16 rfl rfl), rfl, ?_, ?_, ?_, ?_, ?_, fun hm => ?_⟩
  · simp
  · simp [transacting]
  · simp [transacting, consumeEvent]
  · simp [transacting]
  · simp [transacting, commitNothing]
  · exact deviceStore_read_same (by simpa [transacting] using hm)

/-- A whole READ16 that ends with `Ok`: `RAW0` holds what the read returned, and `STATUS` says so (R100). -/
theorem State.Offered.along_read16 (h : s.Offered (.read16 reg) hs)
    (ha : s.answers = Claims.silence n ++ .ok b0 b1 :: as) :
    ∃ t, Along (fun _ => True) (n + 3) s t ∧ t.phase = .idle ∧ t.statusWord = 0x0101 ∧
      t.out = { s.out with raw0 := s.readValue reg b0 b1 } := by
  have hop : (CmdWord.toCmd (encode (.read16 reg))).op = 0x01 := op_of_decode (decode_encode _)
  exact ⟨_, h.along_complete rfl ha (.read16 rfl rfl), rfl,
    (statusWord_complete _ _).trans (congrArg (· ++ 0x01#8) hop), rfl⟩

end

/-- Settles O56: WRITE16 runs to its completion with READ16 held at the port, and leaves the value in the loopback
device, where READ16 finds it whatever bytes are offered. -/
theorem loopbackRoundTrip : Obligations.LoopbackRoundTrip := by
  intro s a b0 b1 c0 c1 v m n rest hl hm hp hn hh hans
  have hbus : s.answers =
      Claims.silence m ++ .ok b0 b1 :: (Claims.silence n ++ .ok c0 c1 :: rest) := by simp [hans]
  have hoffer : s.Offered (.write16 a v) [.offer (encode (.read16 a))] :=
    ⟨hl, hp, hn, hh, .inr ⟨_, _, rfl⟩⟩
  obtain ⟨t, hwrite, htp, htn, hth, hta, htparams, hout, hdev⟩ := hoffer.along_write16 hbus
  have hoffer' : t.Offered (.read16 a) [] := ⟨by rwa [State.ParamsLegal, htparams], htp, htn, hth, .inl rfl⟩
  obtain ⟨u, hread, hup, hst, hraw⟩ := hoffer'.along_read16 hta
  have hv : t.readValue a c0 c1 = v := by
    rw [State.readValue_loopback (by rwa [htparams]), hdev hm, Option.getD_some]
  have hlen : 6 + m + n = n + 3 + (m + 3) := by omega
  rw [hlen]
  exact ⟨u, (hwrite.trans hread).after_eq, hup, hst, by rw [hraw, hout, hv]⟩

end Sys2Proof.Machine
end

section
/-! PROOFS. The field decoder: each field is the bits and the formula of the spec's table, and the integers it gives
fit their registers (41_register_codec.md R120 to R128, R145, R146). -/

namespace Sys2Proof.Machine

/-! ### The fields by their bits and by their formulas (R120, R123, R145) -/

section
variable (f g r v : Half) (o : DataRegs)

theorem toNat_extractLsb'_high4 : (v.extractLsb' 12 4).toNat = v.toNat / 2 ^ 12 := by
  rw [BitVec.extractLsb'_toNat, Nat.shiftRight_eq_div_pow]
  omega

theorem toNat_extractLsb'_high8 : (v.extractLsb' 8 8).toNat = v.toNat / 2 ^ 8 := by
  rw [BitVec.extractLsb'_toNat, Nat.shiftRight_eq_div_pow]
  omega

theorem toNat_extractLsb'_low12 : (v.extractLsb' 0 12).toNat = v.toNat % 2 ^ 12 := by
  rw [BitVec.extractLsb'_toNat, Nat.shiftRight_zero]

theorem decodePair_exponent : (decodePair f g).exponent = f.extractLsb' 12 4 :=
  BitVec.setWidth_ushiftRight_eq_extractLsb (b := f)

theorem decodePair_resultMsb : (decodePair f g).resultMsb = f.extractLsb' 0 12 := low12_eq_extractLsb' f

theorem decodePair_resultLsb : (decodePair f g).resultLsb = g.extractLsb' 8 8 :=
  BitVec.setWidth_ushiftRight_eq_extractLsb (b := g)

theorem decodePair_counter : (decodePair f g).counter = g.extractLsb' 4 4 :=
  BitVec.setWidth_ushiftRight_eq_extractLsb.trans (extractLsb'_counter_mask g)

theorem decodePair_crc : (decodePair f g).crc = g.extractLsb' 0 12 := low12_eq_extractLsb' g

theorem decodePair_mantissa :
    (decodePair f g).mantissa = f.extractLsb' 0 12 ++ g.extractLsb' 8 8 := by
  rw [← decodePair_resultMsb f g, ← decodePair_resultLsb f g]
  exact mantissa_eq_append _ _

theorem toNat_decodePair_mantissa :
    (decodePair f g).mantissa.toNat = f.toNat % 2 ^ 12 * 2 ^ 8 + g.toNat / 2 ^ 8 := by
  rw [decodePair_mantissa, BitVec.toNat_append, ← Nat.shiftLeft_add_eq_or_of_lt (BitVec.isLt _),
    Nat.shiftLeft_eq, toNat_extractLsb'_low12,
    toNat_extractLsb'_high8]

theorem decodePair_adcCode :
    (decodePair f g).adcCode = (decodePair f g).mantissa.toNat * 2 ^ (decodePair f g).exponent.toNat :=
  Nat.shiftLeft_eq _ _

theorem decodeLux_exponent : (decodeLux r).exponent = r.extractLsb' 12 4 :=
  BitVec.setWidth_ushiftRight_eq_extractLsb (b := r)

theorem decodeLux_mantissa : (decodeLux r).mantissa = r.extractLsb' 0 12 := low12_eq_extractLsb' r

theorem decodeLux_fixed :
    (decodeLux r).fixed = (decodeLux r).mantissa.toNat * 2 ^ (decodeLux r).exponent.toNat :=
  Nat.shiftLeft_eq _ _

theorem decodeLux_fixed_eq_luxOf : (decodeLux r).fixed = Claims.luxOf r := by
  rw [decodeLux_fixed, decodeLux_mantissa, decodeLux_exponent, Claims.luxOf]

/-- The registers that READ_LUX_FIXED commits, by the bits of the value (R145). -/
theorem commitLuxFixed_eq_luxFixedRegs : commitLuxFixed r o = Claims.luxFixedRegs r o := by
  simp only [commitLuxFixed, decodeLux_exponent, decodeLux_mantissa, decodeLux_fixed_eq_luxOf,
    Claims.luxFixedRegs]

/-- The registers that READ_LUX_FLOAT and DECODE_LUX commit, by the bits of the value (R145, R147). -/
theorem commitLuxFloat_eq_luxFloatRegs : commitLuxFloat r o = Claims.luxFloatRegs r o := by
  simp only [commitLuxFloat, decodeLux_exponent, decodeLux_mantissa, decodeLux_fixed_eq_luxOf,
    Claims.luxFloatRegs, Claims.luxFixedRegs, luxFloat, Binary64.c001]

end

/-- Settles O33: each field is a run of bits, and a run of bits is a quotient or a remainder. -/
theorem pairFieldsAreTheirBits : Obligations.PairFieldsAreTheirBits := by
  intro f s
  refine ⟨?_, ?_, ?_, ?_, ?_, decodePair_mantissa f s⟩
  · rw [decodePair_exponent, toNat_extractLsb'_high4]
  · rw [decodePair_resultMsb, toNat_extractLsb'_low12]
  · rw [decodePair_resultLsb, toNat_extractLsb'_high8]
  · rw [decodePair_counter, BitVec.extractLsb'_toNat, Nat.shiftRight_eq_div_pow]
    omega
  · rw [decodePair_crc, toNat_extractLsb'_low12]

/-! ### Bounds (R126, R127, R146) -/

/-- The greatest mantissa at the greatest exponent (R126, R146). -/
theorem mul_two_pow_le {w : Nat} (m : BitVec w) (e : BitVec 4) :
    m.toNat * 2 ^ e.toNat ≤ (2 ^ w - 1) * 2 ^ 15 :=
  Nat.mul_le_mul (Nat.le_sub_one_of_lt m.isLt)
    (Nat.pow_le_pow_right Nat.two_pos (Nat.le_of_lt_succ e.isLt))

/-- The ADC code is greatest exactly where the mantissa and the exponent are (R126). -/
theorem adcCode_eq_max_iff (f g : Half) :
    (decodePair f g).adcCode = 0x7FFFF8000 ↔
      (decodePair f g).mantissa.toNat = 0xFFFFF ∧ (decodePair f g).exponent.toNat = 15 := by
  have hm : (decodePair f g).mantissa.toNat ≤ 0xFFFFF := Nat.le_of_lt_succ (BitVec.isLt _)
  have he : (decodePair f g).exponent.toNat ≤ 15 := Nat.le_of_lt_succ (BitVec.isLt _)
  have hp : 2 ^ (decodePair f g).exponent.toNat ≤ 2 ^ 15 := Nat.pow_le_pow_right Nat.two_pos he
  have hmax : 0x7FFFF8000 = 0xFFFFF * 2 ^ 15 := by decide
  rw [decodePair_adcCode, hmax,
    mul_eq_mul_iff_eq_and_eq_of_pos' hm hp (by decide) (Nat.two_pow_pos _),
    Nat.pow_right_inj (by decide)]

/-- Settles O34: a product is greatest where both factors are, and 35 bits are enough for it. -/
theorem adcCodeIsExactAndBelowTwoToThe35 : Obligations.AdcCodeIsExactAndBelowTwoToThe35 := by
  intro f s o
  have hle : (decodePair f s).adcCode ≤ 0x7FFFF8000 :=
    (decodePair_adcCode f s).trans_le (mul_two_pow_le _ _)
  have hlt : (decodePair f s).adcCode < 2 ^ 35 := by omega
  have hreg : (commitPair f s o).adc.toNat = (decodePair f s).adcCode := toNat_ofNat_adcCode f s
  refine ⟨decodePair_adcCode f s, hle, hlt, ?_, hreg, fun m hm hout => ?_⟩
  · have hf : f = 0xFFFF ↔ f.toNat = 0xFFFF := BitVec.toNat_inj.symm
    have hs : s.extractLsb' 8 8 = 0xFF ↔ s.toNat / 2 ^ 8 = 0xFF := by
      rw [← toNat_extractLsb'_high8]
      exact BitVec.toNat_inj.symm
    rw [adcCode_eq_max_iff, toNat_decodePair_mantissa, decodePair_exponent, toNat_extractLsb'_high4, hf, hs]
    omega
  · obtain ⟨hw, -⟩ := hm
    have hport : m.adcPort.toNat = (decodePair f s).adcCode := by
      rw [State.adcPort, BitVec.toNat_setWidth, hout, hreg]
      exact Nat.mod_eq_of_lt (hlt.trans_le (Nat.pow_le_pow_right Nat.two_pos hw))
    exact ⟨hport, hport⟩

/-- Settles O35: the mantissa has 20 bits, so the code reaches bit 32 only with the exponent that moves its top bit
there, or a greater one. -/
theorem thirtyTwoBitsLoseDataFromExponentThirteen :
    Obligations.ThirtyTwoBitsLoseDataFromExponentThirteen := by
  refine ⟨fun f s h => ?_, fun f s he hm => ?_, by decide⟩
  · rw [decodePair_adcCode] at h
    refine ⟨?_, fun he => ?_⟩
    · by_contra! he
      have hp : 2 ^ (decodePair f s).exponent.toNat ≤ 2 ^ 12 :=
        Nat.pow_le_pow_right Nat.two_pos (Nat.le_of_lt_succ he)
      have hlt := Nat.mul_lt_mul_of_lt_of_le (decodePair f s).mantissa.isLt hp (by decide)
      omega
    · rw [he] at h
      omega
  · rw [decodePair_adcCode, he]
    omega

/-- Settles O36: the code is the product of mantissa and power, the mantissa takes `s` by bits 15:8 alone, and the
other fields of `s` overlap. -/
theorem pairDecoderLaws : Obligations.PairDecoderLaws := by
  intro f s
  refine ⟨?_, fun he => ?_, ?_, fun u hu => ?_, fun g => ⟨rfl, rfl⟩, ?_, ?_⟩
  · simp [decodePair_adcCode, ← BitVec.toNat_inj]
  · simp [decodePair_adcCode, he]
  · rw [decodePair_adcCode, Nat.mul_mod_left]
  · rw [decodePair_adcCode, decodePair_adcCode, decodePair_mantissa, decodePair_mantissa, hu,
      decodePair_exponent, decodePair_exponent]
  · rw [decodePair_crc, decodePair_resultLsb, extractLsb'_extractLsb' _ _ _ (by decide),
      extractLsb'_extractLsb' _ _ _ (by decide)]
  · rw [decodePair_crc, decodePair_counter, extractLsb'_extractLsb' _ _ _ (by decide)]

/-- Settles O37: a mantissa of 12 bits moved up by at most 15 places. -/
theorem luxFixedIsExactAndBelowTwoToThe27 : Obligations.LuxFixedIsExactAndBelowTwoToThe27 := by
  intro r o
  have he : (decodeLux r).exponent.toNat = r.toNat / 2 ^ 12 := by
    rw [decodeLux_exponent, toNat_extractLsb'_high4]
  have hm : (decodeLux r).mantissa.toNat = r.toNat % 2 ^ 12 := by
    rw [decodeLux_mantissa, toNat_extractLsb'_low12]
  have hle : (decodeLux r).fixed ≤ 0x7FF8000 := (decodeLux_fixed r).trans_le (mul_two_pow_le _ _)
  exact ⟨he, hm, by rw [decodeLux_fixed, hm, he], hle, by omega, toNat_ofNat_luxFixed r⟩

end Sys2Proof.Machine
end

section
/-! PROOFS. The Register Codec commands: how each completes, and when the second read of a pair is issued
(41_register_codec.md R130 to R153). -/

namespace Sys2Proof.Machine

/-! ### The completing step (R93) -/

/-- Settles O18: the value read is what the commit block of READ_DEVICE_ID writes. -/
theorem readDeviceIdCompletesWithAnyValue : Obligations.ReadDeviceIdCompletesWithAnyValue :=
  fun _ _ _ hd hp he => (Committed.readDeviceId hp he).exec_eq hd

/-- Settles O20: both commands complete with the write of their constant, and the commit block is empty. -/
theorem writeConfigCommandsComplete : Obligations.WriteConfigCommandsComplete :=
  ⟨fun _ _ _ hd hp he => (Committed.writeConfig0 hp he).exec_write hd,
    fun _ _ _ hd hp he => (Committed.writeConfig1 hp he).exec_write hd⟩

/-- Settles O22: the second value completes the pair whose first value is in `LATCH0`. -/
theorem readChannelAdcCompletes : Obligations.ReadChannelAdcCompletes := by
  intro s a b0 b1 hd ha hp he
  rw [(Committed.readChannelAdc ha hp he).exec_eq hd, commitPair_eq_pairRegs]
  rfl

/-- Settles O23: the value read is decoded by the commit block of READ_LUX_FIXED. -/
theorem readLuxFixedCompletes : Obligations.ReadLuxFixedCompletes := by
  intro s reg b0 b1 hd hp he
  rw [(Committed.readLuxFixed hp he).exec_eq hd, commitLuxFixed_eq_luxFixedRegs]
  rfl

/-- Settles O24: the value read is decoded by the commit block of READ_LUX_FLOAT. -/
theorem readLuxFloatCompletes : Obligations.ReadLuxFloatCompletes := by
  intro s reg b0 b1 hd hp he
  rw [(Committed.readLuxFloat hp he).exec_eq hd, commitLuxFloat_eq_luxFloatRegs]
  rfl

/-! ### The two reads of READ_CHANNEL_ADC (R140, R142) -/

/-- Settles O21: the first value is latched in the step that issues the second read. -/
theorem readChannelAdcIssuesItsSecondRead : Obligations.ReadChannelAdcIssuesItsSecondRead :=
  fun _ _ _ _ ha hp he => exec_of_did (.latched rfl ha hp he)

/-- Settles O31: of the outcomes of an engine step only the one that latches the first value puts the second read
into `PEND`. -/
theorem secondReadOnlyAfterTheFirstReturned : Obligations.SecondReadOnlyAfterTheFirstReturned := by
  intro s t a h ht hs
  cases exec_cases h with
  | issued _ hx =>
    cases ht
    by_cases ha : a = 0xFF
    · simp [transactionsOf, ha] at hx
    · simp [transactionsOf_readChannelAdc _ ha] at hx
  | waited => exact absurd (by simpa using ht) hs
  | overflowed => exact absurd ht hs
  | aborted _ _ _ hu => simp [hu.pend_eq] at ht
  | committed hc =>
    rcases hc.pend_cases with hn | hn
    · simp [hn] at ht
    · exact absurd (hn.symm.trans ht) hs
  | latched hi ha hp he =>
    cases hi
    exact ⟨ha, hp, _, _, he, rfl⟩

/-! ### The lux registers (R149) -/

/-- A command that ends without an error has completed with success (R27). -/
theorem Did.committed_of_no_error {s t : State} {i : Instr} (h : Did i s t) (hs : s.phase = .busy)
    (ht : t.phase = .idle) (he : t.status.err = false) :
    ∃ u c, Committed s i u c ∧ t = u.complete c := by
  cases h with
  | issued | waited | latched => simp [hs] at ht
  | overflowed | aborted => cases he
  | committed hc => exact ⟨_, _, hc, rfl⟩

/-- Settles O42: both commands write LUXFIX and LUXFLT from one value, and LUXFIX holds the whole of it. -/
theorem luxRegistersAgree : Obligations.LuxRegistersAgree := by
  intro s t i hi hs h ht he
  obtain ⟨u, c, hc, rfl⟩ := (exec_cases h).committed_of_no_error hs ht he
  have hlux : ∃ r, c = commitLuxFloat r := by
    rcases hi with ⟨reg, rfl⟩ | ⟨r, rfl⟩ <;> cases hc <;> exact ⟨_, rfl⟩
  obtain ⟨r, rfl⟩ := hlux
  exact congrArg (fun n => Binary64.mul (Binary64.ofNat n) Binary64.c001) (toNat_ofNat_luxFixed r).symm

end Sys2Proof.Machine
end

section
/-! PROOFS. Multiplication in binary64 is correctly rounded: `pack` answers the pattern nearest to an exact number
wherever the answer is finite (00_scope.md R13). -/

namespace Sys2Proof.Machine.Binary64

/-! ### Rounding to a whole number, ties to even -/

/-- `q` is the whole number nearest to `y`, and even where two are as near. -/
def RoundsTo (y : ℚ) (q : Nat) : Prop := |q - y| < 1 / 2 ∨ (|q - y| = 1 / 2 ∧ q % 2 = 0)

section
variable {y z : ℚ} {q : Nat}

theorem roundsTo_self (q : Nat) : RoundsTo q q := .inl (by norm_num)

theorem RoundsTo.bounds (h : RoundsTo y q) : -(1 / 2) ≤ q - y ∧ q - y ≤ 1 / 2 :=
  abs_le.mp (h.elim le_of_lt fun h => h.1.le)

theorem RoundsTo.le_of_le {n : Nat} (h : RoundsTo y q) (hy : y ≤ n) : q ≤ n := by
  obtain ⟨-, hq⟩ := h.bounds
  have hlt : (q : ℚ) < (n + 1 : Nat) := by
    push_cast
    linarith
  exact Nat.le_of_lt_succ (Nat.cast_lt.mp hlt)

theorem RoundsTo.ge_of_ge {n : Nat} (h : RoundsTo y q) (hy : n ≤ y) : n ≤ q := by
  obtain ⟨hq, -⟩ := h.bounds
  have hlt : (n : ℚ) < (q + 1 : Nat) := by
    push_cast
    linarith
  exact Nat.le_of_lt_succ (Nat.cast_lt.mp hlt)

/-- No number a whole step away from the rounded one is nearer, nor one that lies beyond it. -/
theorem RoundsTo.nearer (h : RoundsTo y q) (hz : q + 1 ≤ z ∨ z ≤ q - 1 ∨ (z < q ∧ (q : ℚ) ≤ y)) :
    |q - y| < |z - y| ∨ (|q - y| = |z - y| ∧ q % 2 = 0) := by
  obtain ⟨hlo, hhi⟩ := h.bounds
  have hz' : 1 / 2 ≤ |z - y| ∨ |q - y| < |z - y| := by
    rcases hz with hz | hz | ⟨hz, hq⟩
    · exact .inl ((by linarith : 1 / 2 ≤ z - y).trans (le_abs_self _))
    · exact .inl ((by linarith : 1 / 2 ≤ -(z - y)).trans (neg_le_abs _))
    · rw [abs_of_nonpos (by linarith : (q : ℚ) - y ≤ 0), abs_of_nonpos (by linarith : z - y ≤ 0)]
      exact .inr (by linarith)
  rcases hz' with hz' | hz'
  · rcases h with h | ⟨h, he⟩
    · exact .inl (h.trans_le hz')
    · exact (h.trans_le hz').lt_or_eq.imp_right fun h => ⟨h, he⟩
  · exact .inl hz'

end

theorem roundQuotient_roundsTo (n k : Nat) : RoundsTo (n / 2 ^ k) (roundQuotient n k) := by
  have hk : (0 : ℚ) < 2 ^ k := by positivity
  have hn : (n : ℚ) / 2 ^ k = (n / 2 ^ k : Nat) + (n % 2 ^ k : Nat) / 2 ^ k := by
    rw [div_eq_iff hk.ne', add_mul, div_mul_cancel₀ _ hk.ne']
    exact_mod_cast (Nat.div_add_mod' n (2 ^ k)).symm
  have hr : n % 2 ^ k < 2 ^ k := Nat.mod_lt _ (Nat.two_pow_pos k)
  simp only [roundQuotient, Nat.shiftRight_eq_div_pow]
  rw [hn]
  generalize n / 2 ^ k = q at *
  generalize n % 2 ^ k = r at *
  rcases lt_trichotomy (2 * r) (2 ^ k) with h | h | h
  · have ht : (r : ℚ) / 2 ^ k < 1 / 2 := by
      rw [div_lt_div_iff₀ hk two_pos]
      exact_mod_cast (by omega : r * 2 < 1 * 2 ^ k)
    rw [if_neg (by omega)]
    refine .inl ?_
    rw [sub_add_cancel_left, abs_neg, abs_of_nonneg (by positivity)]
    exact ht
  · have ht : (r : ℚ) / 2 ^ k = 1 / 2 := by
      rw [div_eq_div_iff hk.ne' two_ne_zero]
      exact_mod_cast (by omega : r * 2 = 1 * 2 ^ k)
    rw [ht]
    split
    · exact .inr ⟨by norm_num [abs_of_pos], by omega⟩
    · exact .inr ⟨by norm_num, by omega⟩
  · have ht : 1 / 2 < (r : ℚ) / 2 ^ k := by
      rw [div_lt_div_iff₀ two_pos hk]
      exact_mod_cast (by omega : 1 * 2 ^ k < r * 2)
    have ht1 : (r : ℚ) / 2 ^ k < 1 := by
      rw [div_lt_one hk]
      exact_mod_cast hr
    rw [if_pos (.inl h)]
    refine .inl (abs_lt.mpr ?_)
    push_cast
    constructor <;> linarith

/-! ### The patterns around a rounded significand -/

section
variable {j q m : Nat}

/-- The pattern with a significand `q` of at most 53 bits and a last place that weighs `2 ^ j` units: the leading
one, and a carry out of 53 bits, are added into the exponent field. -/
theorem units_of_place (hq : q ≤ 2 ^ 53) (hn : j = 0 ∨ 2 ^ 52 ≤ q) : units (j * 2 ^ 52 + q) = q * 2 ^ j := by
  rcases Nat.lt_or_ge q (2 ^ 52) with h | h
  · obtain rfl : j = 0 := by omega
    have hdiv : (0 * 2 ^ 52 + q) / 2 ^ 52 = 0 := by omega
    have hmod : (0 * 2 ^ 52 + q) % 2 ^ 52 = q := by omega
    rw [units, hdiv, hmod, if_pos rfl, pow_zero, mul_one]
  · rcases hq.lt_or_eq with hq | rfl
    · have hdiv : (j * 2 ^ 52 + q) / 2 ^ 52 = j + 1 := by omega
      have hmod : 2 ^ 52 + (j * 2 ^ 52 + q) % 2 ^ 52 = q := by omega
      rw [units, hdiv, hmod, if_neg (Nat.succ_ne_zero j), Nat.add_sub_cancel]
    · have hdiv : (j * 2 ^ 52 + 2 ^ 53) / 2 ^ 52 = j + 2 := by omega
      have hmod : (j * 2 ^ 52 + 2 ^ 53) % 2 ^ 52 = 0 := by omega
      have hsub : j + 2 - 1 = 1 + j := by omega
      rw [units, hdiv, hmod, if_neg (Nat.succ_ne_zero _), hsub, pow_add, ← mul_assoc]
      rfl

/-- A greater pattern is greater by a whole last place. -/
theorem units_ge_of_gt (hq : q ≤ 2 ^ 53) (hn : j = 0 ∨ 2 ^ 52 ≤ q) (hm : j * 2 ^ 52 + q < m) :
    (q + 1) * 2 ^ j ≤ units m := by
  have hexp : j ≤ (j * 2 ^ 52 + q) / 2 ^ 52 - 1 := by omega
  calc (q + 1) * 2 ^ j = units (j * 2 ^ 52 + q) + 2 ^ j := by rw [units_of_place hq hn, Nat.succ_mul]
    _ ≤ units (j * 2 ^ 52 + q) + 2 ^ ((j * 2 ^ 52 + q) / 2 ^ 52 - 1) :=
      Nat.add_le_add_left (Nat.pow_le_pow_right Nat.two_pos hexp) _
    _ = units (j * 2 ^ 52 + q + 1) := (units_succ _).symm
    _ ≤ units m := units_strictMono.monotone hm

/-- A smaller pattern is smaller by a whole last place, unless the significand is the least with a leading one. -/
theorem units_le_of_lt (hq : q ≤ 2 ^ 53) (hn : j = 0 ∨ 2 ^ 52 < q) (hm : m < j * 2 ^ 52 + q) :
    units m ≤ (q - 1) * 2 ^ j := by
  have hle : m ≤ j * 2 ^ 52 + (q - 1) := by omega
  exact (units_strictMono.monotone hle).trans_eq (units_of_place (by omega) (by omega))

/-- Every other pattern lies a whole last place away, or beyond the rounded number. -/
theorem units_around {y : ℚ} (hn : j = 0 ∨ 2 ^ 52 ≤ y) (hy : y ≤ 2 ^ 53) (hr : RoundsTo y q)
    (hm : m ≠ j * 2 ^ 52 + q) :
    (q : ℚ) + 1 ≤ units m / 2 ^ j ∨ (units m : ℚ) / 2 ^ j ≤ q - 1 ∨
      ((units m : ℚ) / 2 ^ j < q ∧ (q : ℚ) ≤ y) := by
  have hj : (0 : ℚ) < 2 ^ j := by positivity
  have hq : q ≤ 2 ^ 53 := hr.le_of_le (by exact_mod_cast hy)
  have hnq : j = 0 ∨ 2 ^ 52 ≤ q := hn.imp_right fun h => hr.ge_of_ge (by exact_mod_cast h)
  rcases hm.lt_or_gt with hlt | hgt
  · rcases le_or_gt (q : ℚ) y with hqy | hyq
    · refine .inr (.inr ⟨?_, hqy⟩)
      rw [div_lt_iff₀ hj]
      exact_mod_cast (units_strictMono hlt).trans_eq (units_of_place hq hnq)
    · have hnq' : j = 0 ∨ 2 ^ 52 < q := hn.imp_right fun h => by exact_mod_cast h.trans_lt hyq
      have hpos : 1 ≤ q := by omega
      refine .inr (.inl ?_)
      rw [div_le_iff₀ hj, ← Nat.cast_pred hpos]
      exact_mod_cast units_le_of_lt hq hnq' hlt
  · refine .inl ?_
    rw [le_div_iff₀ hj]
    exact_mod_cast units_ge_of_gt hq hnq hgt

/-- A pattern whose significand is a number `y` rounded, `y` counting the pattern's last places, is the nearest to
what `y` counts. -/
theorem isNearest_of_roundsTo {y : ℚ} {b : BitVec 64} (hb : b < infinity) (hp : b.toNat = j * 2 ^ 52 + q)
    (hn : j = 0 ∨ 2 ^ 52 ≤ y) (hy : y ≤ 2 ^ 53) (hr : RoundsTo y q) :
    IsNearest (y * 2 ^ ((j : ℤ) - 1074)) b := by
  have hi : infinity.toNat < 2 ^ 63 := by decide
  have hw : (0 : ℚ) < 2 ^ ((j : ℤ) - 1074) := by positivity
  have hj : (0 : ℚ) < 2 ^ j := by positivity
  have hvalue (c : BitVec 64) (hc : c < infinity) :
      value c = units c.toNat / 2 ^ j * 2 ^ ((j : ℤ) - 1074) := by
    have hc' : c.toNat < infinity.toNat := hc
    rw [value_eq_units (by omega), sub_eq_add_neg, zpow_add₀ two_ne_zero, zpow_natCast, ← mul_assoc,
      div_mul_cancel₀ _ hj.ne']
  have hq : (units b.toNat : ℚ) / 2 ^ j = q := by
    rw [hp, units_of_place (hr.le_of_le (by exact_mod_cast hy))
      (hn.imp_right fun h => hr.ge_of_ge (by exact_mod_cast h)), Nat.cast_mul, Nat.cast_pow, Nat.cast_ofNat,
      mul_div_cancel_right₀ _ hj.ne']
  have heven : b.getLsbD 0 = false ↔ q % 2 = 0 := by
    rw [BitVec.getLsbD, hp, Nat.testBit_zero, decide_eq_false_iff_not]
    omega
  refine ⟨hb, fun c hc hne => ?_⟩
  rw [hvalue b hb, hvalue c hc, hq, ← sub_mul, ← sub_mul, abs_mul, abs_mul,
    mul_lt_mul_iff_left₀ (abs_pos.mpr hw.ne'), mul_left_inj' (abs_pos.mpr hw.ne').ne', heven]
  exact hr.nearer (units_around hn hy hr fun h => hne (BitVec.eq_of_toNat_eq (h.trans hp.symm)))

end

/-! ### Rounding an exact number to a pattern -/

namespace Scaled

/-- The exact number as a rational. -/
def toRat (x : Scaled) : ℚ := x.sig * 2 ^ x.exp

/-- The weight of the last place of the pattern nearest to `x` is `2 ^ unit`. -/
def unit (x : Scaled) : Int := max ((Nat.log2 x.sig : Int) + x.exp - 52) (-1074)

/-- The significand of the pattern nearest to `x`: how many of its last places make up `x`, rounded. -/
def significand (x : Scaled) : Nat :=
  if x.unit ≤ x.exp then x.sig <<< (x.exp - x.unit).toNat
  else roundQuotient x.sig (x.unit - x.exp).toNat

variable {x : Scaled}

theorem significand_roundsTo (x : Scaled) : RoundsTo (x.toRat / 2 ^ x.unit) x.significand := by
  have hdiv : x.toRat / 2 ^ x.unit = x.sig * 2 ^ (x.exp - x.unit) := by
    rw [toRat, mul_div_assoc, zpow_sub₀ two_ne_zero]
  rw [hdiv, significand]
  split
  · rename_i h
    have hexp : ((x.exp - x.unit).toNat : ℤ) = x.exp - x.unit := by omega
    rw [← hexp, zpow_natCast, Nat.shiftLeft_eq]
    exact_mod_cast roundsTo_self _
  · have hexp : x.exp - x.unit = -((x.unit - x.exp).toNat : ℤ) := by omega
    rw [hexp, zpow_neg, zpow_natCast, ← div_eq_mul_inv]
    exact roundQuotient_roundsTo _ _

/-- `x` has at most 53 bits before its last place. -/
theorem toRat_div_le (x : Scaled) : x.toRat / 2 ^ x.unit ≤ 2 ^ 53 := by
  have hlog : (x.sig : ℚ) ≤ 2 ^ ((Nat.log2 x.sig : ℤ) + 1) := by
    exact_mod_cast Nat.lt_log2_self.le
  rw [div_le_iff₀ (by positivity), toRat]
  calc (x.sig : ℚ) * 2 ^ x.exp ≤ 2 ^ ((Nat.log2 x.sig : ℤ) + 1) * 2 ^ x.exp := by gcongr
    _ = 2 ^ ((Nat.log2 x.sig : ℤ) + 1 + x.exp) := (zpow_add₀ two_ne_zero _ _).symm
    _ ≤ 2 ^ (53 + x.unit) := zpow_le_zpow_right₀ one_le_two (by rw [unit]; omega)
    _ = 2 ^ 53 * 2 ^ x.unit := zpow_add₀ two_ne_zero _ _

/-- `x` has 53 bits before its last place, unless that is the least there is. -/
theorem toRat_div_ge (hx : x.sig ≠ 0) (hu : x.unit ≠ -1074) : 2 ^ 52 ≤ x.toRat / 2 ^ x.unit := by
  have hlog : (2 : ℚ) ^ (Nat.log2 x.sig : ℤ) ≤ x.sig := by
    exact_mod_cast Nat.log2_self_le hx
  rw [le_div_iff₀ (by positivity), toRat]
  calc (2 : ℚ) ^ 52 * 2 ^ x.unit = 2 ^ (52 + x.unit) := (zpow_add₀ two_ne_zero _ _).symm
    _ ≤ 2 ^ ((Nat.log2 x.sig : ℤ) + x.exp) := zpow_le_zpow_right₀ one_le_two (by rw [unit] at *; omega)
    _ = 2 ^ (Nat.log2 x.sig : ℤ) * 2 ^ x.exp := zpow_add₀ two_ne_zero _ _
    _ ≤ x.sig * 2 ^ x.exp := by gcongr

theorem significand_le (x : Scaled) : x.significand ≤ 2 ^ 53 :=
  x.significand_roundsTo.le_of_le (by exact_mod_cast x.toRat_div_le)

end Scaled

section
variable {x : Scaled}

theorem toNat_pack (hx : x.sig ≠ 0) :
    (pack x).toNat = min ((x.unit + 1074).toNat * 2 ^ 52 + x.significand) infinity.toNat := by
  simp only [pack, if_neg hx, BitVec.toNat_ofNat, Scaled.significand, Scaled.unit]
  exact Nat.mod_eq_of_lt ((Nat.min_le_right _ _).trans_lt infinity.isLt)

/-- `pack` is correctly rounded wherever the pattern is finite (R13). -/
theorem pack_isNearest (hfin : pack x < infinity) : IsNearest x.toRat (pack x) := by
  have hfin' : (pack x).toNat < infinity.toNat := hfin
  by_cases hx : x.sig = 0
  · have hpack : pack x = 0 := by rw [pack, if_pos hx]
    have hzero : IsNearest (0 * 2 ^ (((0 : Nat) : ℤ) - 1074)) 0 :=
      isNearest_of_roundsTo (q := 0) (by decide) rfl (.inl rfl) (by norm_num) (by exact_mod_cast roundsTo_self 0)
    rw [hpack, Scaled.toRat, hx]
    simpa using hzero
  · have hp : (pack x).toNat = (x.unit + 1074).toNat * 2 ^ 52 + x.significand := by
      have := toNat_pack hx
      omega
    have hj : (((x.unit + 1074).toNat : Nat) : ℤ) - 1074 = x.unit := by
      rw [Scaled.unit]
      omega
    have hnear := isNearest_of_roundsTo hfin hp
      (or_iff_not_imp_left.mpr fun h => x.toRat_div_ge hx (by omega)) x.toRat_div_le x.significand_roundsTo
    rwa [hj, div_mul_cancel₀ _ (by positivity)] at hnear

/-- Multiplication is correctly rounded wherever the product is finite (R13). -/
theorem mul_isNearest {a b : BitVec 64} (hfin : mul a b < infinity) :
    IsNearest (value a * value b) (mul a b) := by
  have hprod : value a * value b =
      Scaled.toRat ⟨(unpack a).sig * (unpack b).sig, (unpack a).exp + (unpack b).exp⟩ := by
    rw [value, value, Scaled.toRat, zpow_add₀ two_ne_zero, Nat.cast_mul, mul_mul_mul_comm]
  rw [hprod]
  exact pack_isNearest hfin

end

end Sys2Proof.Machine.Binary64
end

section
/-! PROOFS. `LuxFloat`: its integer is exact in binary64, and its product with `C001` has a leading one well inside the
range of the exponent field, where a power of two moves that field alone (41_register_codec.md R147 to R153). -/

namespace Sys2Proof.Machine.Binary64

/-! ### Numbers well inside the range of the exponent field -/

/-- The leading one of `x` weighs more than the least normal number and less than the greatest. -/
structure Scaled.Normal (x : Scaled) : Prop where
  ne_zero : x.sig ≠ 0
  gt : -1022 < (Nat.log2 x.sig : ℤ) + x.exp
  le : (Nat.log2 x.sig : ℤ) + x.exp ≤ 1022

namespace Scaled.Normal
variable {x : Scaled}

theorem unit_eq (h : x.Normal) : x.unit = (Nat.log2 x.sig : ℤ) + x.exp - 52 := by
  have := h.gt
  rw [unit]
  omega

theorem two_pow_le_significand (h : x.Normal) : 2 ^ 52 ≤ x.significand := by
  have hu : x.unit ≠ -1074 := by
    have := h.gt
    rw [h.unit_eq]
    omega
  exact x.significand_roundsTo.ge_of_ge (by exact_mod_cast toRat_div_ge h.ne_zero hu)

theorem toNat_pack (h : x.Normal) :
    (pack x).toNat = ((Nat.log2 x.sig : ℤ) + x.exp + 1022).toNat * 2 ^ 52 + x.significand := by
  have hi : infinity.toNat = 2047 * 2 ^ 52 := by decide
  have hq := x.significand_le
  have hle := h.le
  rw [Binary64.toNat_pack h.ne_zero, h.unit_eq, hi]
  omega

theorem pack_lt_infinity (h : x.Normal) : pack x < infinity := by
  have hi : infinity.toNat = 2047 * 2 ^ 52 := by decide
  have hq := x.significand_le
  have hle := h.le
  rw [BitVec.lt_def, h.toNat_pack, hi]
  omega

theorem pack_ne_zero (h : x.Normal) : pack x ≠ 0 := by
  intro h0
  have hp : 0 = _ := (congrArg BitVec.toNat h0).symm.trans h.toNat_pack
  have hq := h.two_pow_le_significand
  omega

/-- A power of two moves the exponent field and leaves the significand. -/
theorem pack_scale {e : Nat} (h : x.Normal) (h' : Normal ⟨x.sig, x.exp + e⟩) :
    pack ⟨x.sig, x.exp + e⟩ = pack x + (BitVec.ofNat 64 e <<< 52) := by
  have hsig : significand ⟨x.sig, x.exp + e⟩ = x.significand := by
    have hu : unit ⟨x.sig, x.exp + e⟩ = x.unit + e := by
      rw [h.unit_eq, h'.unit_eq]
      ring
    simp only [significand, hu, add_le_add_iff_right, add_sub_add_right_eq_sub]
  have hgt := h.gt
  have hle' := h'.le
  have hq := x.significand_le
  apply BitVec.eq_of_toNat_eq
  rw [BitVec.toNat_add, BitVec.toNat_shiftLeft, BitVec.toNat_ofNat, Nat.shiftLeft_eq, h.toNat_pack,
    h'.toNat_pack, hsig]
  simp only at hle' ⊢
  omega

end Scaled.Normal

/-! ### The binary64 form of an integer -/

section
variable {n e : Nat}

/-- What a pattern with a leading one stands for. -/
theorem unpack_of_toNat {b : BitVec 64} {j q : Nat} (hb : b.toNat = j * 2 ^ 52 + q) (hq : 2 ^ 52 ≤ q)
    (hq' : q < 2 ^ 53) (hj : j < 2046) : unpack b = ⟨q, j - 1074⟩ := by
  have he : (b.extractLsb' 52 11).toNat = j + 1 := by
    rw [BitVec.extractLsb'_toNat, Nat.shiftRight_eq_div_pow, hb]
    omega
  have hf : 2 ^ 52 + (b.extractLsb' 0 52).toNat = q := by
    rw [BitVec.extractLsb'_toNat, Nat.shiftRight_zero, hb]
    omega
  have hexp : ((j + 1 : Nat) : ℤ) - 1075 = j - 1074 := by omega
  simp only [unpack]
  rw [he, hf, if_neg (Nat.succ_ne_zero j), hexp]

/-- The leading one of an integer below `2 ^ 53`, moved to bit 52. -/
theorem shiftLeft_to_leading_one (hn : n ≠ 0) (hlt : n < 2 ^ 53) :
    2 ^ 52 ≤ n <<< (52 - Nat.log2 n) ∧ n <<< (52 - Nat.log2 n) < 2 ^ 53 := by
  have hlog : Nat.log2 n < 53 := (Nat.log2_lt hn).mpr hlt
  have h52 : Nat.log2 n + (52 - Nat.log2 n) = 52 := by omega
  have h53 : Nat.log2 n + 1 + (52 - Nat.log2 n) = 53 := by omega
  rw [Nat.shiftLeft_eq]
  constructor
  · calc 2 ^ 52 = 2 ^ Nat.log2 n * 2 ^ (52 - Nat.log2 n) := by rw [← pow_add, h52]
      _ ≤ n * 2 ^ (52 - Nat.log2 n) := Nat.mul_le_mul_right _ (Nat.log2_self_le hn)
  · calc n * 2 ^ (52 - Nat.log2 n) < 2 ^ (Nat.log2 n + 1) * 2 ^ (52 - Nat.log2 n) :=
        Nat.mul_lt_mul_of_pos_right Nat.lt_log2_self (Nat.two_pow_pos _)
      _ = 2 ^ 53 := by rw [← pow_add, h53]

/-- An integer below `2 ^ 53` is exact in binary64: its pattern holds the integer's own bits (R147). -/
theorem unpack_ofNat (hn : n ≠ 0) (hlt : n < 2 ^ 53) :
    unpack (ofNat n) = ⟨n <<< (52 - Nat.log2 n), (Nat.log2 n : ℤ) - 52⟩ := by
  have hlog : Nat.log2 n < 53 := (Nat.log2_lt hn).mpr hlt
  have hnorm : Scaled.Normal ⟨n, 0⟩ := ⟨hn, by simp only; omega, by simp only; omega⟩
  have hsig : Scaled.significand ⟨n, 0⟩ = n <<< (52 - Nat.log2 n) := by
    have hu : Scaled.unit ⟨n, 0⟩ = (Nat.log2 n : ℤ) - 52 := by rw [hnorm.unit_eq, add_zero]
    have hexp : (0 - ((Nat.log2 n : ℤ) - 52)).toNat = 52 - Nat.log2 n := by omega
    rw [Scaled.significand, hu, if_pos (by simp only; omega), hexp]
  have hp : (ofNat n).toNat = (Nat.log2 n + 1022) * 2 ^ 52 + n <<< (52 - Nat.log2 n) := by
    rw [ofNat, hnorm.toNat_pack, hsig]
    congr 2
  obtain ⟨hge, hlt⟩ := shiftLeft_to_leading_one hn hlt
  have hexp : ((Nat.log2 n + 1022 : Nat) : ℤ) - 1074 = (Nat.log2 n : ℤ) - 52 := by omega
  rw [unpack_of_toNat hp hge hlt (by omega), hexp]

theorem value_ofNat (hlt : n < 2 ^ 53) : value (ofNat n) = n := by
  rcases Nat.eq_zero_or_pos n with rfl | hpos
  · norm_num [value, ofNat, pack, unpack]
  · have hlog : Nat.log2 n < 53 := (Nat.log2_lt hpos.ne').mpr hlt
    have hexp : (Nat.log2 n : ℤ) - 52 = -((52 - Nat.log2 n : Nat) : ℤ) := by omega
    rw [value, unpack_ofNat hpos.ne' hlt, Nat.shiftLeft_eq, hexp, zpow_neg, zpow_natCast, Nat.cast_mul,
      Nat.cast_pow, Nat.cast_ofNat, mul_inv_cancel_right₀ (by positivity)]

/-! ### The product with `C001` (R147, R148, R151) -/

/-- The exact product of an integer and `C001`. -/
def luxProduct (n : Nat) : Scaled :=
  ⟨n <<< (52 - Nat.log2 n) * 0x147AE147AE147B, (Nat.log2 n : ℤ) - 52 + -59⟩

theorem luxFloat_eq_pack (hn : n ≠ 0) (hlt : n < 2 ^ 53) : luxFloat n = pack (luxProduct n) := by
  have hc : unpack c001 = ⟨0x147AE147AE147B, -59⟩ := by decide
  rw [luxFloat, mul, unpack_ofNat hn hlt, hc, luxProduct]

theorem luxProduct_normal (hn : n ≠ 0) (hlt : n < 2 ^ 27) : (luxProduct n).Normal := by
  have hlog : Nat.log2 n < 27 := (Nat.log2_lt hn).mpr hlt
  obtain ⟨hge, hlt⟩ := shiftLeft_to_leading_one hn (by omega)
  have hsig : (luxProduct n).sig = n <<< (52 - Nat.log2 n) * 0x147AE147AE147B := rfl
  have hge' : 2 ^ 104 ≤ (luxProduct n).sig := by omega
  have hlt' : (luxProduct n).sig < 2 ^ 106 := by omega
  have h0 : (luxProduct n).sig ≠ 0 := by omega
  have hl := (Nat.le_log2 h0).mpr hge'
  have hl' := (Nat.log2_lt h0).mpr hlt'
  have hexp : (luxProduct n).exp = (Nat.log2 n : ℤ) - 52 + -59 := rfl
  exact ⟨h0, by omega, by omega⟩

theorem log2_mul_two_pow (hn : n ≠ 0) (e : Nat) : Nat.log2 (n * 2 ^ e) = Nat.log2 n + e := by
  rw [Nat.log2_eq_iff (by positivity), add_right_comm, pow_add, pow_add 2 (Nat.log2 n + 1)]
  exact ⟨Nat.mul_le_mul_right _ (Nat.log2_self_le hn),
    Nat.mul_lt_mul_of_pos_right Nat.lt_log2_self (Nat.two_pow_pos e)⟩

/-- Scaling an integer scales the exact product, and leaves its significand. -/
theorem luxProduct_mul_two_pow (hn : n ≠ 0) (h : Nat.log2 n + e ≤ 52) :
    luxProduct (n * 2 ^ e) = ⟨(luxProduct n).sig, (luxProduct n).exp + e⟩ := by
  have hexp : e + (52 - (Nat.log2 n + e)) = 52 - Nat.log2 n := by omega
  rw [luxProduct, log2_mul_two_pow hn, Nat.shiftLeft_eq, mul_assoc n, ← pow_add, hexp, ← Nat.shiftLeft_eq,
    luxProduct]
  congr 1
  push_cast
  ring

theorem luxFloat_zero : luxFloat 0 = 0 := by decide

theorem luxFloat_lt_infinity (hlt : n < 2 ^ 27) : luxFloat n < infinity := by
  rcases Nat.eq_zero_or_pos n with rfl | hpos
  · decide
  · rw [luxFloat_eq_pack hpos.ne' (by omega)]
    exact (luxProduct_normal hpos.ne' hlt).pack_lt_infinity

end

/-- Settles O39: the integer is exact in binary64, and a finite product is correctly rounded. -/
theorem luxFloatIsCorrectlyRounded : Obligations.LuxFloatIsCorrectlyRounded := by
  intro n hn
  have hnear : IsNearest (value (ofNat n) * value c001) (luxFloat n) := mul_isNearest (luxFloat_lt_infinity hn)
  rwa [value_ofNat (by omega)] at hnear

/-- Settles O40: the exponent scales the exact product, whose significand is rounded as before. -/
theorem luxFloatCommutesWithTheExponent : Obligations.LuxFloatCommutesWithTheExponent := by
  intro m e h0 hm he
  have hpow : 2 ^ e ≤ 2 ^ 15 := Nat.pow_le_pow_right Nat.two_pos (Nat.le_of_lt_succ he)
  have hlt : m * 2 ^ e < 2 ^ 27 :=
    (Nat.mul_lt_mul_of_lt_of_le hm hpow (by decide)).trans_eq (by decide : 2 ^ 12 * 2 ^ 15 = 2 ^ 27)
  have hne : m * 2 ^ e ≠ 0 := (Nat.mul_pos h0 (Nat.two_pow_pos e)).ne'
  have hlog : Nat.log2 m < 12 := (Nat.log2_lt h0.ne').mpr hm
  have hscale := luxProduct_mul_two_pow (e := e) h0.ne' (by omega)
  rw [luxFloat_eq_pack hne (by omega), luxFloat_eq_pack h0.ne' (by omega), hscale]
  exact (luxProduct_normal h0.ne' (by omega)).pack_scale (hscale ▸ luxProduct_normal hne hlt)

/-- Settles O41: the product with a positive integer has a leading one well inside the exponent's range. -/
theorem luxFloatIsFiniteAndNotNegative : Obligations.LuxFloatIsFiniteAndNotNegative := by
  intro n hn
  refine ⟨luxFloat_lt_infinity hn, fun h => ?_, fun h => h ▸ luxFloat_zero⟩
  by_contra h0
  rw [luxFloat_eq_pack h0 (by omega)] at h
  exact (luxProduct_normal h0 hn).pack_ne_zero h

end Sys2Proof.Machine.Binary64
end

section
/-! PROOFS. The decode-only commands complete in the step that runs them, whatever `PEND`, the bus agent and the
device hold (42_decode_only.md R160 to R163). -/

namespace Sys2Proof.Machine

/-- Settles O25: both values are operands, so DECODE_PAIR commits them with no state of the bus asked for. -/
theorem decodePairCompletes : Obligations.DecodePairCompletes := by
  intro s f g hd
  rw [Committed.decodePair.exec_eq hd, commitPair_eq_pairRegs]
  rfl

/-- Settles O26: the value is an operand, and the commit block is that of READ_LUX_FLOAT. -/
theorem decodeLuxCompletes : Obligations.DecodeLuxCompletes := by
  intro s r hd
  rw [Committed.decodeLux.exec_eq hd, commitLuxFloat_eq_luxFloatRegs]
  rfl

end Sys2Proof.Machine
end

section
/-! PROOFS. The three exceptions complete their command with `STATUS` alone written, and a transaction that never
returns holds the engine until a reset (60_exceptions.md R200 to R208). -/

namespace Sys2Proof.Machine

section
variable {s u : State} {i : Instr} {x : Transaction}

/-- An exception records the `OP` of the row of the command that takes it (R29, R84). -/
theorem State.raise_of_decode (e : Exception) (hd : decode s.cur = some i) :
    s.raise e = { s with status := Status.failure e i.mnemonic.op, phase := .idle } := by
  rw [raise, op_of_decode hd]

/-- Of the loopback device's registers an aborted transaction changes only the one that it was to write (R107). -/
theorem Aborted.devreg_read (h : Aborted s x u) {a : Nat}
    (ha : ∀ d r b0 b1, x = .write d r b0 b1 → r.toNat ≠ a) : u.devreg.read a = s.devreg.read a := by
  cases h with
  | read => simp
  | write =>
    have hne := (ha _ _ _ _ rfl).symm
    simpa using State.deviceUnknown_read_other (s := s.consumeEvent.retire) a hne

/-- Reset is the host's turn, whatever the engine is doing (R231). -/
theorem step_reset {rest : List HostAction} (hl : s.ParamsLegal) (hh : s.host = .reset :: rest) :
    step s = .next { s.applyReset with host := rest } :=
  step_taken hl (by simp only [State.hostTurn, hh])

end

/-- Settles O28: the state in which BusError is raised differs from the one before in `PEND`, in the free values
used up, and in the register that the transaction was to write. -/
theorem busErrorWritesOnlyStatus : Obligations.BusErrorWritesOnlyStatus := by
  intro s i x hd hp hx hf
  obtain ⟨u, hu⟩ := exists_aborted s x
  obtain ⟨-, -, hcur, -⟩ := hu.sameSession
  have hraise := State.raise_of_decode .busError (hcur ▸ hd)
  refine ⟨_, (exec_of_did (.aborted hp hx hf hu)).trans (congrArg _ hraise), rfl, ?_⟩
  exact ⟨hu.out_eq, rfl, hu.pend_eq, hu.latch0_eq, hu.sameSession, fun a => hu.devreg_read⟩

/-- Settles O27: with no offset after `0xFF` the command overflows before it issues a read. -/
theorem addrOverflowWritesOnlyStatus : Obligations.AddrOverflowWritesOnlyStatus := by
  intro s hp hd
  rw [exec_of_did (.overflowed rfl hp), State.raise_of_decode _ hd]
  rfl

/-- Settles O9: a word that is not well formed decodes to no command, and the host's turn moves its own list only. -/
theorem illegalCommandWritesOnlyStatus : Obligations.IllegalCommandWritesOnlyStatus := by
  intro s u hl hu hb hw
  have hd : decode u.cur = none := (illegalWordsAreTheUndefinedAndTheReserved.1 u.cur).mpr hw
  obtain ⟨-, rest, rfl⟩ := State.hostTurn_engine hu
  exact ⟨rfl, step_illegal (paramRefusal_none hl) hu hb hd⟩

/-- Settles O30: the command waits through every silent answer, and a reset ends it. -/
theorem hungTransactionKeepsTheEngineBusy : Obligations.HungTransactionKeepsTheEngineBusy := by
  intro s i x n rest hl hb hd hp hx ha hh
  have hwait : Along (fun _ => True) n s { s with answers := rest } :=
    Along.wait ⟨hl, hb, hd, hh⟩ hp hx ha fun _ => trivial
  exact ⟨hwait.after_eq, _, step_reset hl rfl, rfl⟩

end Sys2Proof.Machine
end

section
/-! PROOFS. Reset at any time, and the number of steps in which a word completes (70_reset_and_hazards.md R230 to R232,
R239, R240). -/

namespace Sys2Proof.Machine

/-! ### Reset (R230 to R232) -/

/-- A reset changes no register of the device but the one that a cut-off write was to write (R231, R232). -/
theorem State.cutOff_devreg_read {s : State} {a : Nat}
    (ha : ∀ d r b0 b1, s.pend = some (.write d r b0 b1) → r.toNat ≠ a) :
    s.cutOff.devreg.read a = s.devreg.read a := by
  unfold cutOff
  split
  · rename_i hp
    exact deviceUnknown_read_other a (ha _ _ _ _ hp).symm
  · rfl
  · rfl

/-- `STATUS` is a constant in an IDLE engine that has completed nothing (R39). -/
theorem State.statusWord_of_idle {s : State} (hp : s.phase = .idle) (hs : s.status = {}) :
    s.statusWord = 0x0000 := by
  rw [statusWord, busy, hp, hs]
  rfl

/-- Settles O10: the step loads `SESSION.DEV` as every reset does, and the rest is what the operation writes. -/
theorem resetRestoresTheResetValues : Obligations.ResetRestoresTheResetValues := by
  intro s rest hl hh
  have hs := step_reset hl hh
  obtain ⟨hparams, -, hdev⟩ := deviceAddressChangesOnlyAtReset _ _ hs
  have hreset : ¬ Claims.NoReset s := fun hn => hn rest hh
  refine ⟨_, hs, hdev hreset, rfl, rfl, State.statusWord_of_idle rfl rfl, rfl, rfl, hparams, rfl,
    State.applyReset_answers s, fun a ha => ?_⟩
  exact (congrArg (Memory.read · a) (State.applyReset_devreg s)).trans (State.cutOff_devreg_read ha)

/-! ### A word that the engine executes, legal or not (R91, R93) -/

/-- The engine executes the word `w`, and the host has nothing more to do. -/
structure State.Executing (w : CmdWord) (s : State) : Prop where
  legal : s.ParamsLegal
  busy : s.phase = .busy
  cur_eq : s.cur = w
  host_nil : s.host = []

/-- The word `w` has completed, and the engine is ready for the next one. -/
structure State.Completed (w : CmdWord) (s : State) : Prop where
  idle : s.phase = .idle
  pend_none : s.pend = none
  valid : s.status.valid = true
  lastop : s.status.lastop = w.extractLsb' 40 8
  host_nil : s.host = []

/-- The word `w` completes in `n` steps or fewer. -/
def State.CompletesWithin (n : Nat) (w : CmdWord) (s : State) : Prop :=
  ∃ k t, k ≤ n ∧ Claims.after k s = .next t ∧ t.Completed w

section
variable {s t u : State} {w : CmdWord} {i : Instr} {x : Transaction} {c : DataRegs → DataRegs} {n : Nat}

/-- The host's one offer is taken (R90). -/
theorem step_offer_executing (hl : s.ParamsLegal) (hp : s.phase = .idle) (hh : s.host = [.offer w]) :
    step s = .next { s.accept w with host := [] } ∧
      State.Executing w { s.accept w with host := [] } :=
  ⟨step_taken hl (State.hostTurn_offer_of_idle hh hp), hl, rfl, rfl, rfl⟩

namespace State

theorem Completed.completesWithin (h : t.Completed w) : t.CompletesWithin n w :=
  ⟨0, t, Nat.zero_le n, rfl, h⟩

theorem CompletesWithin.of_step (h : t.CompletesWithin n w) (hs : step s = .next t) :
    s.CompletesWithin (n + 1) w := by
  obtain ⟨k, u, hk, hu, hc⟩ := h
  exact ⟨k + 1, u, Nat.succ_le_succ hk, (after_succ hs).trans hu, hc⟩

namespace Executing

theorem runs (h : s.Executing w) (hd : decode w = some i) : s.Runs i :=
  ⟨h.legal, h.busy, h.cur_eq ▸ hd, .inl h.host_nil⟩

/-- Whether it runs a command or completes an illegal word, the engine keeps what it runs. -/
theorem sameSession (h : s.Executing w) (hs : step s = .next t) : s.SameSession t := by
  cases hd : decode w with
  | none =>
    rw [step_illegal (paramRefusal_none h.legal) (hostTurn_nil h.host_nil) h.busy (h.cur_eq ▸ hd)] at hs
    cases hs
    exact ⟨rfl, rfl, rfl, rfl⟩
  | some i => exact (exec_cases ((h.runs hd).step_eq ▸ hs)).sameSession

theorem of_busy (h : s.Executing w) (hs : step s = .next t) (hb : t.phase = .busy) : t.Executing w := by
  obtain ⟨hparams, -, hcur, hhost⟩ := h.sameSession hs
  exact ⟨by rw [ParamsLegal, hparams]; exact h.legal, hb, hcur.trans h.cur_eq, hhost.trans h.host_nil⟩

/-- A step that leaves the engine IDLE has completed the word (R29, R93). -/
theorem completed (h : s.Executing w) (hs : step s = .next t) (hi : t.phase = .idle)
    (hp : t.pend = none) : t.Completed w := by
  have hn : Claims.NoReset s := by simp [Claims.NoReset, h.host_nil]
  obtain ⟨hv, hop, -⟩ := completionWritesStatus s t hs hn h.busy hi
  obtain ⟨-, -, -, hhost⟩ := h.sameSession hs
  exact ⟨hi, hp, hv, h.cur_eq ▸ hop, hhost.trans h.host_nil⟩

end Executing
end State

/-! ### Words without a transaction (R240) -/

/-- A command without a transaction completes where it was. -/
theorem Committed.eq_of_no_transaction (h : Committed s i u c) (hx : transactionsOf s.dev i = []) :
    u = s := by
  cases h with
  | decodePair | decodeLux => rfl
  | readChannelAdc ha => simp [transactionsOf_readChannelAdc _ ha] at hx
  | _ => cases hx

/-- An engine step of a command without a transaction completes it, and asks nothing of the bus agent. -/
theorem Did.of_no_transaction (h : Did i s t) (hx : transactionsOf s.dev i = []) :
    t.phase = .idle ∧ t.pend = s.pend ∧ t.answers = s.answers ∧ t.draws = s.draws := by
  cases h with
  | issued _ hm | waited _ hm | aborted _ hm => simp [hx] at hm
  | latched hi ha =>
    subst hi
    simp [transactionsOf_readChannelAdc _ ha] at hx
  | overflowed => exact ⟨rfl, rfl, rfl, rfl⟩
  | committed hc =>
    obtain rfl := hc.eq_of_no_transaction hx
    exact ⟨rfl, rfl, rfl, rfl⟩

/-- An illegal word, or a command without a transaction, completes in the step that begins it. -/
theorem State.Executing.completes_at_once (h : s.Executing w) (hp : s.pend = none)
    (hw : decode w = none ∨ ∃ i, decode w = some i ∧ transactionsOf s.dev i = []) :
    ∃ t, step s = .next t ∧ t.Completed w ∧ t.answers = s.answers ∧ t.draws = s.draws := by
  rcases hw with hd | ⟨i, hd, hx⟩
  · have hs := step_illegal (paramRefusal_none h.legal) (hostTurn_nil h.host_nil) h.busy (h.cur_eq ▸ hd)
    exact ⟨_, hs, h.completed hs rfl hp, rfl, rfl⟩
  · obtain ⟨t, ht⟩ := did_of_pend_none (i := i) hp
    have hs : step s = .next t := (h.runs hd).step_eq.trans (exec_of_did ht)
    obtain ⟨hidle, hpend, hanswers, hdraws⟩ := ht.of_no_transaction hx
    exact ⟨t, hs, h.completed hs hidle (hpend.trans hp), hanswers, hdraws⟩

/-! ### Words with transactions, when the bus agent returns (R92, R239) -/

/-- With a transaction of its own a command completes with nothing outstanding. -/
theorem Committed.pend_eq (h : Committed s i u c) (hx : x ∈ transactionsOf s.dev i) : u.pend = none := by
  rcases h.state_cases with ⟨hi, -⟩ | rfl | ⟨_, _, -, rfl⟩
  · simp [hi] at hx
  · rfl
  · simp

/-- When the outstanding transaction returns, the command completes, or it was the first read of a pair and the second
is issued (R142). -/
theorem Did.of_return (h : Did i s t) (hp : s.pend = some x) (hx : x ∈ transactionsOf s.dev i)
    (he : s.nextEvent ≠ .silent) :
    (t.phase = .idle ∧ t.pend = none) ∨
    ∃ a, i = .readChannelAdc a ∧ a ≠ 0xFF ∧ x = .read s.dev a ∧ t.phase = s.phase ∧ t.dev = s.dev ∧
      t.pend = some (.read s.dev (a + 1)) ∧ t.answers = s.consumeEvent.answers := by
  cases h with
  | issued hn | overflowed _ hn => simp [hp] at hn
  | waited _ _ hs => exact absurd hs he
  | aborted _ _ _ hu => exact .inl ⟨rfl, hu.pend_eq⟩
  | latched hi ha hpa =>
    cases hp.symm.trans hpa
    exact .inr ⟨_, hi, ha, rfl, by simp, by simp, rfl, rfl⟩
  | committed hc => exact .inl ⟨rfl, hc.pend_eq hx⟩

section
variable {e e1 e2 : BusEvent} {rest : List BusEvent}

namespace State

theorem nextEvent_of_answers (ha : s.answers = e :: rest) : s.nextEvent = e := by
  simp only [nextEvent, ha]

theorem consumeEvent_answers_of_answers (ha : s.answers = e :: rest) : s.consumeEvent.answers = rest := by
  simp only [consumeEvent, ha]

/-- With a transaction outstanding that returns, the word has completed after this step, or the second read of a pair
is outstanding. -/
theorem Executing.step_of_return (h : s.Executing w) (hd : decode w = some i)
    (hp : s.pend = some x) (hx : x ∈ transactionsOf s.dev i)
    (ha : s.answers = e :: rest) (he : e ≠ .silent) :
    ∃ t, step s = .next t ∧ (t.Completed w ∨
      ∃ a, i = .readChannelAdc a ∧ a ≠ 0xFF ∧ x = .read s.dev a ∧ t.Executing w ∧ t.dev = s.dev ∧
        t.pend = some (.read s.dev (a + 1)) ∧ t.answers = rest) := by
  obtain ⟨t, ht⟩ := did_of_pending hp hx
  have hs : step s = .next t := (h.runs hd).step_eq.trans (exec_of_did ht)
  refine ⟨t, hs, ?_⟩
  rcases ht.of_return hp hx (nextEvent_of_answers ha ▸ he) with
    ⟨hidle, hpend⟩ | ⟨a, hi, hne, hxa, hph, hdev, hpend, hans⟩
  · exact .inl (h.completed hs hidle hpend)
  · exact .inr ⟨a, hi, hne, hxa, h.of_busy hs (hph.trans h.busy), hdev, hpend,
      hans.trans (consumeEvent_answers_of_answers ha)⟩

/-- With two returns at hand the word completes in two steps or one: no command has a third transaction (R51). -/
theorem Executing.completesWithin_of_returns (h : s.Executing w) (hd : decode w = some i)
    (hp : s.pend = some x) (hx : x ∈ transactionsOf s.dev i)
    (ha : s.answers = e1 :: e2 :: rest) (he1 : e1 ≠ .silent) (he2 : e2 ≠ .silent) :
    s.CompletesWithin 2 w := by
  obtain ⟨t, hs, hc | ⟨a, rfl, hne, rfl, ht, hdev, hpend, hans⟩⟩ := h.step_of_return hd hp hx ha he1
  · exact hc.completesWithin.of_step hs
  · have hx' : Transaction.read s.dev (a + 1) ∈ transactionsOf t.dev (.readChannelAdc a) := by
      simp [transactionsOf_readChannelAdc _ hne, hdev]
    obtain ⟨u, hs', hc | ⟨b, hi, -, hb, -⟩⟩ := ht.step_of_return hd hpend hx' hans he2
    · exact (hc.completesWithin.of_step hs').of_step hs
    · cases hi
      exact absurd (Transaction.read.inj hb).2 (add_one_ne a)

end State
end
end

/-- Settles O58: the first step takes the word, the second completes it. -/
theorem commandsWithoutTransactionCompleteInTwoSteps :
    Obligations.CommandsWithoutTransactionCompleteInTwoSteps := by
  intro s w hl hp hn hh hw
  obtain ⟨htake, hu⟩ := step_offer_executing hl hp hh
  obtain ⟨t, hs, hc, hanswers, hdraws⟩ := hu.completes_at_once hn hw
  exact ⟨t, (after_succ htake).trans (after_succ hs), hc.idle, hc.valid, hc.lastop, hanswers, hdraws⟩

/-- Settles O57: a step takes the word, a step issues the first transaction, and each return takes one more. -/
theorem everyCommandCompletesWhenTheBusReturns : Obligations.EveryCommandCompletesWhenTheBusReturns := by
  intro s w e1 e2 rest hl hp hn hh ha he1 he2
  obtain ⟨htake, hu⟩ := step_offer_executing hl hp hh
  suffices h : State.CompletesWithin 3 w { s.accept w with host := [] } by
    obtain ⟨k, t, hk, ht, hc⟩ := h.of_step htake
    exact ⟨k, t, hk, ht, hc.idle, hc.pend_none, hc.valid, hc.lastop, hc.host_nil⟩
  have honce (hw : decode w = none ∨ ∃ i, decode w = some i ∧ transactionsOf s.dev i = []) :
      State.CompletesWithin 3 w { s.accept w with host := [] } := by
    obtain ⟨t, hs, hc, -⟩ := hu.completes_at_once hn hw
    exact hc.completesWithin.of_step hs
  cases hd : decode w with
  | none => exact honce (.inl hd)
  | some i =>
    cases hx : transactionsOf s.dev i with
    | nil => exact honce (.inr ⟨i, hd, hx⟩)
    | cons x xs =>
      have hs := (hu.runs hd).step_eq.trans (exec_issues hn (congrArg List.head? hx))
      have hmem : x ∈ transactionsOf s.dev i := hx ▸ List.mem_cons_self
      exact ((hu.of_busy hs rfl).completesWithin_of_returns hd rfl hmem ha he1 he2).of_step hs

end Sys2Proof.Machine
end

section
/-! PROOFS. Listings of command words as bytes: which command the six bytes stand for, and when they stand for none
(30_encoding.md R80, R83, R86). -/

namespace Sys2Proof

variable {b5 b4 b3 b2 b1 b0 : Byte}

theorem decodeBytes_eq :
    decodeBytes [b5, b4, b3, b2, b1, b0] = decode (Cmd.toWord ⟨b5, b4, b3 ++ b2, b1 ++ b0⟩) := by
  rw [decodeBytes, wordOfBytes_eq, Option.bind_some]

/-- A listing decodes to the one command whose fields it lists. -/
theorem decodeBytes_eq_some_iff {i : Instr} :
    decodeBytes [b5, b4, b3, b2, b1, b0] = some i ↔ i.toCmd = ⟨b5, b4, b3 ++ b2, b1 ++ b0⟩ := by
  rw [decodeBytes_eq]
  constructor
  · intro h
    rw [← toCmd_encode, encode_of_decode h, toCmd_toWord]
  · intro h
    rw [← h]
    exact decode_encode i

/-- A listing decodes to no command when its `OP` is undefined or a field it lists must be zero and is not. -/
theorem decodeBytes_eq_none_iff :
    decodeBytes [b5, b4, b3, b2, b1, b0] = none ↔
      Cmd.wellFormed ⟨b5, b4, b3 ++ b2, b1 ++ b0⟩ = false := by
  obtain ⟨hillegal, -⟩ := illegalWordsAreTheUndefinedAndTheReserved
  rw [decodeBytes_eq, hillegal, toCmd_toWord]

/-- Settles O6: the legal rows list the fields of their commands, and the fields of the illegal rows are not well
formed. -/
theorem listedWordsDecode : Obligations.ListedWordsDecode := by
  simp only [Obligations.ListedWordsDecode, decodeBytes_eq_some_iff, decodeBytes_eq_none_iff]
  decide

end Sys2Proof
end
